-- ==== Sys2Proof/Word.lean ====
section
/-! DEFINITION. The word types of the hardware (00_scope.md R7, R9, R10). -/

namespace Sys2Proof

/-- A 32-bit unsigned value: a register, an address, an instruction word, FLAGS (R7, R11). -/
abbrev Word := BitVec 32

/-- One byte of memory (R40). -/
abbrev Byte := BitVec 8

/-- A register number, 0 to 15 (R17): field value k of an instruction names register k (R67). -/
abbrev Reg := Fin 16

/-- Register 13, the stack pointer SP (R19). -/
abbrev spReg : Reg := 13

/-- Register 14, the link register LR (R20). -/
abbrev lrReg : Reg := 14

/-- Register 15, the program counter PC (R21). -/
abbrev pcReg : Reg := 15

end Sys2Proof
end

