-- ==== Sys2Proof/Config.lean ====
section
/-! DEFINITION. The implementation parameters of 00_scope.md R7 and R8: constants where the spec settles the value,
fields of `Params` where it takes an argument. The spec leaves no result of an instruction undefined, so there is no
free value here. -/

namespace Sys2Proof

/-- `ADDR_WIDTH`, which R40 fixes at 32 because every address is a register value (log 16). -/
def addrWidth : Nat := 32

/-- `STACK_SIZE`, 1024 bytes (R7). -/
def stackSize : Nat := 1024

/-- `ENDIAN`, the byte order of multi-byte accesses (R8, R45). -/
inductive Endian where
  | little
  | big
deriving DecidableEq, Repr

/-- `UNKNOWN_COND_POLICY`, what B and BL do with a condition code outside the four (R8, R132). -/
inductive UnknownCondPolicy where
  | fault
  | neverTaken
deriving DecidableEq, Repr

/-- `CMP_MODE`, how CMP's difference is signed (R8, R94). -/
inductive CmpMode where
  | wrap32
  | exactSigned
deriving DecidableEq, Repr

/-- `MUL_RD_FIELD`, the field that names MUL's destination: bits [19:16] or bits [15:12] (R8, R111). -/
inductive MulRdField where
  | bits19to16
  | bits15to12
deriving DecidableEq, Repr

/-- `CACHE_KEY`, what the cache is keyed by (R8, R171). -/
inductive CacheKey where
  | instructionWord
  | fetchAddress
deriving DecidableEq, Repr

/-- `TAG_MODE`, the tag formula (R8, R174). -/
inductive TagMode where
  | full
  | reference
deriving DecidableEq, Repr

/-- A byte range `[base, base + len)` (R41). Its end is a natural number, not a wrapped address (log 14). -/
structure Region where
  base : Word
  len : Nat
deriving DecidableEq, Repr

/-- The parameters of R8 that a step reads. They are configuration (R38): no step changes them. `CACHE_SIZE` is held
by the cache that `construct` builds (R170). DESIGN CHOICE, safe: they stand in State so that every value is modelled
(log 1). -/
structure Params where
  endian : Endian
  stackBase : Word
  codeRegions : List Region
  bufferRegions : List Region
  stepLimit : Nat
  cacheKey : CacheKey
  tagMode : TagMode
  unknownCondPolicy : UnknownCondPolicy
  cmpMode : CmpMode
  mulRdField : MulRdField
deriving DecidableEq, Repr

/-- The parameters of `State.reset`: R8's defaults, and for the OPEN ones the example layout of 95_test_vectors.md
section 1 with no program in it, hence no code region. DESIGN CHOICE, unsafe (log 2). -/
def Params.atReset : Params where
  endian := .little
  stackBase := 0x00100000#32
  codeRegions := []
  bufferRegions := [⟨0x00200000#32, 64⟩]
  stepLimit := 10000
  cacheKey := .instructionWord
  tagMode := .full
  unknownCondPolicy := .fault
  cmpMode := .wrap32
  mulRdField := .bits19to16

/-- The `CACHE_SIZE` of `State.reset` (95_test_vectors.md section 1). DESIGN CHOICE, unsafe (log 2). -/
def cacheSizeAtReset : Nat := 8

/-- The `entry` of `State.reset` (95_test_vectors.md section 1). DESIGN CHOICE, unsafe (log 2). -/
def entryAtReset : Word := 0x00008000#32

end Sys2Proof
end

