-- ==== Sys2Proof/Machine/Bytes.lean ====
section
/-! DEFINITION. Byte order: how the four bytes of a word lie in memory (20_memory.md R45, R46). -/

namespace Sys2Proof.Machine

/-- The word whose bytes, lowest address first, are `b0 b1 b2 b3` (R45). -/
def wordOfBytes (e : Endian) (b0 b1 b2 b3 : Byte) : Word :=
  match e with
  | .little => b3 ++ b2 ++ b1 ++ b0
  | .big => b0 ++ b1 ++ b2 ++ b3

/-- Byte k of a word, byte 0 being bits [7:0] (R46). -/
def byteOfWord (v : Word) (k : Nat) : Byte := v.extractLsb' (8 * k) 8

/-- The byte a word leaves at offset k from its lowest address, k < 4 (R46; log 11 for `ENDIAN = Big`). -/
def storedByte (e : Endian) (v : Word) (k : Nat) : Byte :=
  match e with
  | .little => byteOfWord v k
  | .big => byteOfWord v (3 - k)

end Sys2Proof.Machine
end

