-- ==== Sys2Proof/Syntax.lean ====
section
/-! DEFINITION. The instructions: one constructor of `Instr` per row of spec/opcode_table.json.
An instruction keeps every bit of its word, the ones its executor ignores included (R68), because the fault record
holds the whole word (R33; log 8). A field named `ign…` is ignored by execution. -/

namespace Sys2Proof

/-- The class `Classify` gives a word (R74). -/
inductive WordClass where
  | bx
  | mul
  | mem
  | dp
  | branch
  | unrecognized
deriving DecidableEq, Repr

/-- The fields the decoder extracts from every word, whatever its class (R61, R86). -/
structure Decoded where
  cls : WordClass
  cond : BitVec 4
  i : Bool
  opcode : BitVec 4
  l : Bool
  b : Bool
  link : Bool
  rn : Reg
  rd : Reg
  rs : Reg
  rm : Reg
  imm8 : BitVec 8
  imm12 : BitVec 12
  imm24 : BitVec 24
deriving DecidableEq, Repr

/-- The second operand of a data-processing word, bits [25] and [11:0] (R62, R71). -/
inductive Operand2 where
  /-- I = 1: `imm8`; bits [11:8] are ignored. -/
  | imm (ign11to8 : BitVec 4) (imm8 : BitVec 8)
  /-- I = 0: register `rm`; bits [11:4] are ignored. -/
  | reg (ign11to4 : BitVec 8) (rm : Reg)
deriving DecidableEq, Repr

/-- The fields of a data-processing word but for its opcode (R62). -/
structure DpFields where
  ignCond : BitVec 4
  ignS : Bool
  rn : Reg
  rd : Reg
  op2 : Operand2
deriving DecidableEq, Repr

/-- The fields of a multiply word (R63). `rd` is the destination only when `MUL_RD_FIELD` is bits [15:12]. -/
structure MulFields where
  ignCond : BitVec 4
  ign25to20 : BitVec 6
  rn : Reg
  rd : Reg
  rs : Reg
  ign3to0 : BitVec 4
deriving DecidableEq, Repr

/-- The offset of a memory word, bits [25] and [11:0] (R64, R72). -/
inductive Offset where
  /-- I = 0: the 12-bit immediate. -/
  | imm (imm12 : BitVec 12)
  /-- I = 1: register `rm`; bits [11:4] are ignored. -/
  | reg (ign11to4 : BitVec 8) (rm : Reg)
deriving DecidableEq, Repr

/-- The fields of a memory word but for L and B (R64); bits 24, 23 and 21 are ignored (R122). -/
structure MemFields where
  ignCond : BitVec 4
  ignP : Bool
  ignU : Bool
  ignW : Bool
  rn : Reg
  rd : Reg
  off : Offset
deriving DecidableEq, Repr

/-- The fields of a branch word but for its link bit (R65). -/
structure BranchFields where
  cond : BitVec 4
  imm24 : BitVec 24
deriving DecidableEq, Repr

/-- The fields of a branch-exchange word (R66). -/
structure BxFields where
  ignCond : BitVec 4
  rm : Reg
deriving DecidableEq, Repr

/-- The instructions, one constructor per row of spec/opcode_table.json. -/
inductive Instr where
  | bx (f : BxFields)
  | mul (f : MulFields)
  | ldr (f : MemFields)
  | ldrb (f : MemFields)
  | str (f : MemFields)
  | strb (f : MemFields)
  | add (f : DpFields)
  | sub (f : DpFields)
  | cmp (f : DpFields)
  | mov (f : DpFields)
  | dpnopAnd (f : DpFields)
  | dpnopEor (f : DpFields)
  | dpnopRsb (f : DpFields)
  | dpnopAdc (f : DpFields)
  | dpnopSbc (f : DpFields)
  | dpnopRsc (f : DpFields)
  | dpnopTst (f : DpFields)
  | dpnopTeq (f : DpFields)
  | dpnopCmn (f : DpFields)
  | dpnopOrr (f : DpFields)
  | dpnopBic (f : DpFields)
  | dpnopMvn (f : DpFields)
  | b (f : BranchFields)
  | bl (f : BranchFields)
deriving DecidableEq, Repr

/-- The class of an instruction's words (R77, R78, R79). -/
def Instr.cls : Instr → WordClass
  | .bx _ => .bx
  | .mul _ => .mul
  | .ldr _ => .mem
  | .ldrb _ => .mem
  | .str _ => .mem
  | .strb _ => .mem
  | .add _ => .dp
  | .sub _ => .dp
  | .cmp _ => .dp
  | .mov _ => .dp
  | .dpnopAnd _ => .dp
  | .dpnopEor _ => .dp
  | .dpnopRsb _ => .dp
  | .dpnopAdc _ => .dp
  | .dpnopSbc _ => .dp
  | .dpnopRsc _ => .dp
  | .dpnopTst _ => .dp
  | .dpnopTeq _ => .dp
  | .dpnopCmn _ => .dp
  | .dpnopOrr _ => .dp
  | .dpnopBic _ => .dp
  | .dpnopMvn _ => .dp
  | .b _ => .branch
  | .bl _ => .branch

end Sys2Proof
end

