-- ==== Sys2Proof/Decode.lean ====
section
/-! DEFINITION. The decoder (30_encoding.md), total on any word and on any bytes, and after it the encoder. -/

namespace Sys2Proof

/-- Why the decoder gives no instruction. -/
inductive DecodeRefusal where
  /-- The word is of class UNRECOGNIZED and spells no instruction (R80). -/
  | unrecognized (iw : Word)
  /-- Fewer bytes than one word were given; every instruction is one 32-bit word (R60). -/
  | truncated
deriving DecidableEq, Repr

/-- `Classify(iw)`: the tests in R74's order, the first that holds decides. -/
def classify (iw : Word) : WordClass :=
  if iw.extractLsb' 4 24 = 0x12FFF1#24 then .bx
  else if iw.extractLsb' 26 2 = 0b00#2 ∧ iw.extractLsb' 4 4 = 0b1001#4 then .mul
  else if iw.extractLsb' 26 2 = 0b01#2 then .mem
  else if iw.extractLsb' 26 2 = 0b00#2 then .dp
  else if iw.extractLsb' 25 3 = 0b101#3 then .branch
  else .unrecognized

/-- A four-bit register field as a register number (R67). -/
def regOfBits (b : BitVec 4) : Reg := b.toFin

/-- The register field at bits [lo+3:lo]. -/
def regField (iw : Word) (lo : Nat) : Reg := regOfBits (iw.extractLsb' lo 4)

/-- One bit of the word as a truth value. -/
def bitField (iw : Word) (n : Nat) : Bool := iw.getLsbD n

/-- The decoder's record: every field of R61, whatever the class (R86). -/
def fieldsOf (iw : Word) : Decoded where
  cls := classify iw
  cond := iw.extractLsb' 28 4
  i := bitField iw 25
  opcode := iw.extractLsb' 21 4
  l := bitField iw 20
  b := bitField iw 22
  link := bitField iw 24
  rn := regField iw 16
  rd := regField iw 12
  rs := regField iw 8
  rm := regField iw 0
  imm8 := iw.extractLsb' 0 8
  imm12 := iw.extractLsb' 0 12
  imm24 := iw.extractLsb' 0 24

/-- The second operand of a data-processing word (R62, R71): I = 1 is the immediate. -/
def operand2Of (iw : Word) : Operand2 :=
  let d := fieldsOf iw
  if d.i then .imm (iw.extractLsb' 8 4) d.imm8 else .reg (iw.extractLsb' 4 8) d.rm

/-- The offset of a memory word (R64, R72): I = 1 is the register. -/
def offsetOf (iw : Word) : Offset :=
  let d := fieldsOf iw
  if d.i then .reg (iw.extractLsb' 4 8) d.rm else .imm d.imm12

/-- The fields of a data-processing word (R62). -/
def dpFieldsOf (iw : Word) : DpFields :=
  let d := fieldsOf iw
  { ignCond := d.cond, ignS := bitField iw 20, rn := d.rn, rd := d.rd, op2 := operand2Of iw }

/-- The fields of a multiply word (R63). -/
def mulFieldsOf (iw : Word) : MulFields :=
  let d := fieldsOf iw
  { ignCond := d.cond, ign25to20 := iw.extractLsb' 20 6, rn := d.rn, rd := d.rd, rs := d.rs,
    ign3to0 := iw.extractLsb' 0 4 }

/-- The fields of a memory word (R64). -/
def memFieldsOf (iw : Word) : MemFields :=
  let d := fieldsOf iw
  { ignCond := d.cond, ignP := bitField iw 24, ignU := bitField iw 23, ignW := bitField iw 21, rn := d.rn,
    rd := d.rd, off := offsetOf iw }

/-- The fields of a branch word (R65). -/
def branchFieldsOf (iw : Word) : BranchFields :=
  let d := fieldsOf iw
  { cond := d.cond, imm24 := d.imm24 }

/-- The fields of a branch-exchange word (R66). -/
def bxFieldsOf (iw : Word) : BxFields :=
  let d := fieldsOf iw
  { ignCond := d.cond, rm := d.rm }

/-- The data-processing instruction an opcode selects (R77); the last arm is opcode `1111`, the only one left. -/
def dpInstr (opcode : BitVec 4) (f : DpFields) : Instr :=
  match opcode with
  | 0b0000#4 => .dpnopAnd f
  | 0b0001#4 => .dpnopEor f
  | 0b0010#4 => .sub f
  | 0b0011#4 => .dpnopRsb f
  | 0b0100#4 => .add f
  | 0b0101#4 => .dpnopAdc f
  | 0b0110#4 => .dpnopSbc f
  | 0b0111#4 => .dpnopRsc f
  | 0b1000#4 => .dpnopTst f
  | 0b1001#4 => .dpnopTeq f
  | 0b1010#4 => .cmp f
  | 0b1011#4 => .dpnopCmn f
  | 0b1100#4 => .dpnopOrr f
  | 0b1101#4 => .mov f
  | 0b1110#4 => .dpnopBic f
  | _ => .dpnopMvn f

/-- The load or store that (L, B) selects (R78). -/
def memInstr (l b : Bool) (f : MemFields) : Instr :=
  match l, b with
  | true, false => .ldr f
  | true, true => .ldrb f
  | false, false => .str f
  | false, true => .strb f

/-- The branch that the link bit selects (R79). -/
def branchInstr (link : Bool) (f : BranchFields) : Instr :=
  match link with
  | false => .b f
  | true => .bl f

/-- The decoder: the instruction a word spells, or its refusal by name (R74, R80, R87, R162). -/
def decodeWord (iw : Word) : Except DecodeRefusal Instr :=
  match classify iw with
  | .bx => .ok (.bx (bxFieldsOf iw))
  | .mul => .ok (.mul (mulFieldsOf iw))
  | .mem => .ok (memInstr (fieldsOf iw).l (fieldsOf iw).b (memFieldsOf iw))
  | .dp => .ok (dpInstr (fieldsOf iw).opcode (dpFieldsOf iw))
  | .branch => .ok (branchInstr (fieldsOf iw).link (branchFieldsOf iw))
  | .unrecognized => .error (.unrecognized iw)

/-- The decoder on bytes, lowest address first: the instruction of the first word and the bytes after it. -/
def decodeBytes (e : Endian) : List Byte → Except DecodeRefusal (Instr × List Byte)
  | b0 :: b1 :: b2 :: b3 :: rest => (decodeWord (Machine.wordOfBytes e b0 b1 b2 b3)).map (fun i => (i, rest))
  | _ => .error .truncated

/-- The instruction word given as an opcode-table number: bits 0 to nbits - 1 of w, every bit above 0. -/
def tableWord (nbits w : Nat) : Word := BitVec.ofNat 32 (w % 2 ^ nbits)

/-- The bytes of a word as the hardware stores it, the lowest address first. -/
def bytesOfWord (e : Endian) (v : Word) : List Byte :=
  [Machine.storedByte e v 0, Machine.storedByte e v 1, Machine.storedByte e v 2, Machine.storedByte e v 3]

/-- The instruction the decoder reads from a table row's bits w, stored under the default byte order. -/
def decodeTableWord (nbits w : Nat) : Option Instr :=
  match decodeBytes .little (bytesOfWord .little (tableWord nbits w)) with
  | .ok (i, _) => some i
  | .error _ => none

/-- The four bits of a register field. -/
def bitsOfReg (r : Reg) : BitVec 4 := BitVec.ofFin r

/-- Bits [11:0] of a data-processing word (R62). -/
def Operand2.bits : Operand2 → BitVec 12
  | .imm ign imm8 => ign ++ imm8
  | .reg ign rm => ign ++ bitsOfReg rm

/-- Bit 25 of a data-processing word: 1 is the immediate (R61). -/
def Operand2.iBit : Operand2 → Bool
  | .imm _ _ => true
  | .reg _ _ => false

/-- Bits [11:0] of a memory word (R64). -/
def Offset.bits : Offset → BitVec 12
  | .imm imm12 => imm12
  | .reg ign rm => ign ++ bitsOfReg rm

/-- Bit 25 of a memory word: 1 is the register (R61). -/
def Offset.iBit : Offset → Bool
  | .imm _ => false
  | .reg _ _ => true

/-- A field whose lowest bit stands at bit lo of the word. -/
def place {w : Nat} (lo : Nat) (x : BitVec w) : Word := x.setWidth 32 <<< lo

/-- The data-processing format (R62). -/
def encodeDp (opcode : BitVec 4) (f : DpFields) : Word :=
  place 28 f.ignCond ||| place 26 0b00#2 ||| place 25 (BitVec.ofBool f.op2.iBit) ||| place 21 opcode
    ||| place 20 (BitVec.ofBool f.ignS) ||| place 16 (bitsOfReg f.rn) ||| place 12 (bitsOfReg f.rd)
    ||| place 0 f.op2.bits

/-- The multiply format (R63). -/
def encodeMul (f : MulFields) : Word :=
  place 28 f.ignCond ||| place 26 0b00#2 ||| place 20 f.ign25to20 ||| place 16 (bitsOfReg f.rn)
    ||| place 12 (bitsOfReg f.rd) ||| place 8 (bitsOfReg f.rs) ||| place 4 0b1001#4 ||| place 0 f.ign3to0

/-- The memory format (R64). -/
def encodeMem (l b : Bool) (f : MemFields) : Word :=
  place 28 f.ignCond ||| place 26 0b01#2 ||| place 25 (BitVec.ofBool f.off.iBit) ||| place 24 (BitVec.ofBool f.ignP)
    ||| place 23 (BitVec.ofBool f.ignU) ||| place 22 (BitVec.ofBool b) ||| place 21 (BitVec.ofBool f.ignW)
    ||| place 20 (BitVec.ofBool l) ||| place 16 (bitsOfReg f.rn) ||| place 12 (bitsOfReg f.rd)
    ||| place 0 f.off.bits

/-- The branch format (R65). -/
def encodeBranch (link : Bool) (f : BranchFields) : Word :=
  place 28 f.cond ||| place 25 0b101#3 ||| place 24 (BitVec.ofBool link) ||| place 0 f.imm24

/-- The branch-exchange format (R66). -/
def encodeBx (f : BxFields) : Word :=
  place 28 f.ignCond ||| place 4 0x12FFF1#24 ||| place 0 (bitsOfReg f.rm)

/-- The encoder: the word of an instruction (R62 to R66, R77 to R79). -/
def encode : Instr → Word
  | .bx f => encodeBx f
  | .mul f => encodeMul f
  | .ldr f => encodeMem true false f
  | .ldrb f => encodeMem true true f
  | .str f => encodeMem false false f
  | .strb f => encodeMem false true f
  | .add f => encodeDp 0b0100#4 f
  | .sub f => encodeDp 0b0010#4 f
  | .cmp f => encodeDp 0b1010#4 f
  | .mov f => encodeDp 0b1101#4 f
  | .dpnopAnd f => encodeDp 0b0000#4 f
  | .dpnopEor f => encodeDp 0b0001#4 f
  | .dpnopRsb f => encodeDp 0b0011#4 f
  | .dpnopAdc f => encodeDp 0b0101#4 f
  | .dpnopSbc f => encodeDp 0b0110#4 f
  | .dpnopRsc f => encodeDp 0b0111#4 f
  | .dpnopTst f => encodeDp 0b1000#4 f
  | .dpnopTeq f => encodeDp 0b1001#4 f
  | .dpnopCmn f => encodeDp 0b1011#4 f
  | .dpnopOrr f => encodeDp 0b1100#4 f
  | .dpnopBic f => encodeDp 0b1110#4 f
  | .dpnopMvn f => encodeDp 0b1111#4 f
  | .b f => encodeBranch false f
  | .bl f => encodeBranch true f

end Sys2Proof
end

