-- ==== Sys2Proof/Machine/State.lean ====
section
/-! DEFINITION. The machine's state as plain data (10_state.md), the reasons a step of the model can stop, and the
state after reset. -/

namespace Sys2Proof.Machine

/-- The run state (R32, R150). -/
inductive RunState where
  | idle
  | running
  | halted
  | faulted
deriving DecidableEq, Repr

/-- The fault causes of R186. The spec's faults are states the machine enters (R198), not stops of the model. -/
inductive Cause where
  | decodeError
  | outOfBounds
  | misalignedData
  | misalignedFetch
  | unknownCondition
  | unpredictablePcField
  | nonTermination
  | configError
deriving DecidableEq, Repr

/-- The fault record of R33; an absent field is `none`, as R186's table says for each cause. -/
structure FaultRecord where
  cause : Cause
  code : Nat
  pc : Option Word
  word : Option Word
  addr : Option Word
deriving DecidableEq, Repr

/-- The six counters, unbounded naturals (R29). -/
structure Counters where
  dp : Nat
  mem : Nat
  br : Nat
  total : Nat
  taken : Nat
  nottaken : Nat
deriving DecidableEq, Repr

/-- One cache slot: its valid bit and its tag (R170). The tag of an invalid slot is never read (R179; log 9). -/
structure Slot where
  valid : Bool
  tag : Word
deriving DecidableEq, Repr

/-- The fetch-path cache: `CACHE_SIZE`, the slots and the statistics (R170). -/
structure Cache where
  size : Nat
  slots : List Slot
  hits : Nat
  misses : Nat
  requests : Nat
deriving DecidableEq, Repr

/-- The machine's state: the registers with the PC as register 15 (R17, R21), FLAGS (R24), the counters (R29), the
run state and the fault record (R32, R33), the cache, absent until `construct` (R34, R179), the bytes of every region
(R41) and the parameters (R8; the model's own field, log 1). -/
structure State where
  regs : Vector Word 16
  flags : Word
  counters : Counters
  runState : RunState
  record : Option FaultRecord
  cache : Option Cache
  mem : List Host.Cell
  params : Params
deriving DecidableEq, Repr

/-- Why a step of the model stops with no next state. None is a fault of the spec: those are taken (log 5). -/
inductive Fault where
  /-- Raised by `frontEnd` for a step asked of a block that is not RUNNING: "Only RUNNING has a step" (R150; log 6).
  Safe: the hardware does nothing there either. -/
  | notRunning (r : RunState)
  /-- Raised by `frontEnd` for a RUNNING state with no cache, which no run reaches: "no call can start without a cache"
  (R181; log 7). Safe: it only stops where the hardware has no such state. -/
  | noCache
deriving DecidableEq, Repr

/-- Why the model gives an instruction no meaning. -/
inductive Refusal where
  /-- Raised by `exec` for an instruction with no meaning yet; no arm raises it. Safe: it only stops. -/
  | notModelled (mnemonic : String)
deriving DecidableEq, Repr

/-- What a step or a meaning answers. -/
abbrev Result := Host.Outcome State Fault Refusal

/-- All counters 0 (R212). -/
def Counters.zero : Counters where
  dp := 0
  mem := 0
  br := 0
  total := 0
  taken := 0
  nottaken := 0

/-- A slot that was never written: invalid (R179). Its tag is DESIGN CHOICE, unsafe: unspecified and never read (log 9). -/
def Slot.empty : Slot where
  valid := false
  tag := 0#32

/-- A newly constructed cache: "all slots invalid and stats zero" (R179). -/
def Cache.fresh (n : Nat) : Cache where
  size := n
  slots := List.replicate n Slot.empty
  hits := 0
  misses := 0
  requests := 0

/-- The state after `construct` and `start` (R212), with the parameters, cache size and entry of log 2 (DESIGN CHOICE,
unsafe), no argument supplied (R213), and no byte of a code or buffer region listed (log 4). -/
def State.reset : State where
  regs := ⟨#[0, 0, 0, 0, 0, 0, 0, 0, 0, 0, 0, 0, 0, Params.atReset.stackBase + BitVec.ofNat 32 stackSize, 0,
    entryAtReset], rfl⟩
  flags := 0#32
  counters := Counters.zero
  runState := .running
  record := none
  cache := some (Cache.fresh cacheSizeAtReset)
  mem := []
  params := Params.atReset

end Sys2Proof.Machine
end

