-- ==== Sys2Proof/Machine/Cache.lean ====
section
/-! DEFINITION. The fetch-path direct-mapped cache observer (46_fetch_cache.md). -/

namespace Sys2Proof.Machine

/-- `CACHE_SIZE` is "a power of two in [8, 1024]" (R170, R181). -/
def validCacheSize (n : Nat) : Bool :=
  decide (8 ≤ n) && decide (n ≤ 1024) && n &&& (n - 1) == 0

/-- The number of right shifts by one that take n to 1, at most `fuel` of them (R173). -/
def shiftsToOne : Nat → Nat → Nat
  | 0, _ => 0
  | fuel + 1, n => if n ≤ 1 then 0 else shiftsToOne fuel (n >>> 1) + 1

/-- `log2(N)`, exact for the admitted sizes (R173). -/
def cacheLog2 (n : Nat) : Nat := shiftsToOne 10 n

/-- `slot_index(N, key) = (key >> 2) & (N - 1)` (R172). -/
def slotIndex (n : Nat) (key : Word) : Nat :=
  ((key >>> 2) &&& BitVec.ofNat 32 (n - 1)).toNat

/-- `tag(N, key)` under each `TAG_MODE` (R174). -/
def cacheTag (mode : TagMode) (n : Nat) (key : Word) : Word :=
  match mode with
  | .full => key >>> (2 + cacheLog2 n)
  | .reference => (key >>> (2 + cacheLog2 n)) &&& BitVec.ofNat 32 (2 + cacheLog2 n - 1)

/-- Slot i, an unwritten one where there is no such slot (only in a cache that is not well formed; log 7). -/
def Cache.slot (c : Cache) (i : Nat) : Slot := c.slots.getD i Slot.empty

/-- A hit: one more request and one more hit, no slot changed (R175, R176). -/
def Cache.recordHit (c : Cache) : Cache :=
  { c with requests := c.requests + 1, hits := c.hits + 1 }

/-- A miss: one more request and one more miss, the slot holds the tag and is valid, nothing else (R175, R177). -/
def Cache.recordMiss (c : Cache) (i : Nat) (t : Word) : Cache :=
  { c with requests := c.requests + 1, misses := c.misses + 1, slots := c.slots.set i { valid := true, tag := t } }

/-- `CacheAccess(key)` (R175). -/
def Cache.access (mode : TagMode) (c : Cache) (key : Word) : Cache :=
  let i := slotIndex c.size key
  let t := cacheTag mode c.size key
  if (c.slot i).valid && (c.slot i).tag == t then c.recordHit else c.recordMiss i t

end Sys2Proof.Machine
end

