-- ==== Sys2Proof/Machine/Memory.lean ====
section
/-! DEFINITION. Memory as a list of (address, byte) pairs in one canonical form: addresses strictly rising, below 2^32,
and no entry equal to what an unlisted address reads as. Which addresses may be accessed is Regions.lean's concern. -/

namespace Sys2Proof.Machine

/-- The bytes of the address space. -/
abbrev Memory := List Host.Cell

/-- What an unlisted address reads as: 0, the stack's reset contents (R42, R212). For a code or buffer byte the host
did not supply it is DESIGN CHOICE, unsafe (log 4). -/
def Memory.unlisted : Byte := 0#8

/-- The byte at an address. -/
def Memory.read : Memory → Nat → Byte
  | [], _ => Memory.unlisted
  | (k, v) :: m, a => if k = a then v else Memory.read m a

/-- The list with an entry for (a, b) in front, or none if b is what an unlisted address reads as. -/
def Memory.cons (a : Nat) (b : Byte) (m : Memory) : Memory :=
  if b = Memory.unlisted then m else (a, b) :: m

/-- Memory with the byte at a replaced by b. -/
def Memory.write : Memory → Nat → Byte → Memory
  | [], a, b => Memory.cons a b []
  | (k, v) :: m, a, b =>
    if a < k then Memory.cons a b ((k, v) :: m)
    else if a = k then Memory.cons a b m
    else (k, v) :: Memory.write m a b

/-- Memory with every byte of `[lo, lo + n)` back at what an unlisted address reads as. -/
def Memory.clear (m : Memory) (lo n : Nat) : Memory :=
  m.filter (fun c => decide (c.1 < lo) || decide (lo + n ≤ c.1))

/-- The canonical form from an address on: every address is at least lo. -/
def Memory.wfFrom : Nat → Memory → Bool
  | _, [] => true
  | lo, (k, v) :: m => decide (lo ≤ k) && decide (k < 2 ^ addrWidth) && v != Memory.unlisted && Memory.wfFrom (k + 1) m

/-- The canonical form. -/
def Memory.wf (m : Memory) : Bool := Memory.wfFrom 0 m

end Sys2Proof.Machine
end

