-- ==== Sys2Proof/Machine/Regions.lean ====
section
/-! DEFINITION. Which accesses the regions admit (20_memory.md R41) and alignment (R47, R49). -/

namespace Sys2Proof.Machine

/-- The kinds of access (R41). -/
inductive Access where
  | fetch
  | load
  | store
deriving DecidableEq, Repr

/-- All n bytes a … a+n−1 lie in the region (R41). -/
def regionHolds (r : Region) (a : Word) (n : Nat) : Bool :=
  decide (r.base.toNat ≤ a.toNat) && decide (a.toNat + n ≤ r.base.toNat + r.len)

/-- The stack's region `[STACK_BASE, STACK_BASE + 1024)` (R42). -/
def stackRegion (p : Params) : Region := ⟨p.stackBase, stackSize⟩

/-- The regions whose column of R41 says yes for the kind of access. -/
def admittingRegions (p : Params) : Access → List Region
  | .fetch => p.codeRegions
  | .load => stackRegion p :: (p.bufferRegions ++ p.codeRegions)
  | .store => stackRegion p :: p.bufferRegions

/-- `Admitted(kind, a, n)`: all n bytes lie in one region that admits the kind (R41). -/
def admitted (p : Params) (k : Access) (a : Word) (n : Nat) : Bool :=
  (admittingRegions p k).any (fun r => regionHolds r a n)

/-- The address is a multiple of 4 (R47, R49). -/
def aligned4 (a : Word) : Bool := a.toNat % 4 == 0

end Sys2Proof.Machine
end

