-- ==== Sys2Proof/Machine/Ops.lean ====
section
/-! DEFINITION. The named operations over registers, memory, counters, the cache and the run state; taking a fault is
`State.raise`, and the only way out of a fault, `State.resetForCall`, stands beside it (R199: "there is no
return-from-fault instruction"). -/

namespace Sys2Proof.Machine

/-- `x[r]`: the register's value; register 15 is the PC, which holds `cur` while an instruction executes (R21). -/
def State.reg (s : State) (r : Reg) : Word := s.regs[r]

/-- `x[r] <- v`. No register is hardwired (R17). -/
def State.setReg (s : State) (r : Reg) (v : Word) : State := { s with regs := s.regs.set r v }

/-- `pc`, register 15 (R10, R21). -/
def State.pc (s : State) : Word := s.reg pcReg

/-- `pc <- v`. -/
def State.setPc (s : State) (v : Word) : State := s.setReg pcReg v

/-- `pc <- cur + 4`, modulo 2^32 (R23). -/
def State.advance (s : State) : State := s.setPc (s.pc + 4#32)

/-- `WriteBack(d, v)` (R156): with d = 15 the write is the control transfer and the advance is suppressed. -/
def State.writeBack (s : State) (d : Reg) (v : Word) : State :=
  if d = pcReg then s.setPc v else s.advance.setReg d v

/-- What retires, for `Retire` (R157). -/
inductive Retired where
  | dp
  | mem
  | brTaken
  | brNotTaken
deriving DecidableEq, Repr

/-- The counters after one retired instruction (R29, R157). -/
def Counters.count (c : Counters) : Retired → Counters
  | .dp => { c with dp := c.dp + 1, total := c.total + 1 }
  | .mem => { c with mem := c.mem + 1, total := c.total + 1 }
  | .brTaken => { c with br := c.br + 1, taken := c.taken + 1, total := c.total + 1 }
  | .brNotTaken => { c with br := c.br + 1, nottaken := c.nottaken + 1, total := c.total + 1 }

/-- `Retire(kind[, outcome])` (R157). -/
def State.retire (s : State) (k : Retired) : State := { s with counters := s.counters.count k }

/-- The byte at an address. -/
def State.readByte (s : State) (a : Word) : Byte := Memory.read s.mem a.toNat

/-- The byte at an address replaced. -/
def State.writeByte (s : State) (a : Word) (b : Byte) : State := { s with mem := Memory.write s.mem a.toNat b }

/-- `MemRead(a, 4)` (R45). -/
def State.readWord (s : State) (a : Word) : Word :=
  wordOfBytes s.params.endian (s.readByte a) (s.readByte (a + 1#32)) (s.readByte (a + 2#32)) (s.readByte (a + 3#32))

/-- `MemWrite(a, 4, v)` (R46). -/
def State.writeWord (s : State) (a v : Word) : State :=
  (((s.writeByte a (storedByte s.params.endian v 0)).writeByte (a + 1#32) (storedByte s.params.endian v 1)).writeByte
    (a + 2#32) (storedByte s.params.endian v 2)).writeByte (a + 3#32) (storedByte s.params.endian v 3)

/-- The code of a cause (R186). -/
def Cause.code : Cause → Nat
  | .decodeError => 1
  | .outOfBounds => 2
  | .misalignedData => 3
  | .misalignedFetch => 4
  | .unknownCondition => 5
  | .unpredictablePcField => 6
  | .nonTermination => 7
  | .configError => 8

/-- The record of a fault (R33, R186). -/
def faultRecord (c : Cause) (pc word addr : Option Word) : FaultRecord where
  cause := c
  code := c.code
  pc := pc
  word := word
  addr := addr

/-- TAKING A FAULT (R185, R195, R198): the run state becomes FAULTED, the record is written with pc = `cur`, and
nothing else changes; there is no vector, handler or saved status (log 5). -/
def State.raise (s : State) (c : Cause) (word addr : Option Word) : State :=
  { s with runState := .faulted, record := some (faultRecord c (some s.pc) word addr) }

/-- The call halts (R151): the run state becomes HALTED and nothing else happens. -/
def State.halt (s : State) : State := { s with runState := .halted }

/-- The lowest address past the stack, SP's reset value (R19, R42), modulo 2^32 (log 15). -/
def stackTop (p : Params) : Word := p.stackBase + BitVec.ofNat 32 stackSize

/-- `reset_for_call(entry, a0, a1, a2, a3)` (R211): the only way out of FAULTED and HALTED (R199). The cache and the
code and buffer bytes are untouched (R43, R214). -/
def State.resetForCall (s : State) (entry a0 a1 a2 a3 : Word) : State :=
  { s with
    regs := ⟨#[a0, a1, a2, a3, 0, 0, 0, 0, 0, 0, 0, 0, 0, stackTop s.params, 0, entry], rfl⟩
    flags := 0#32
    counters := Counters.zero
    runState := .running
    record := none
    mem := Memory.clear s.mem s.params.stackBase.toNat stackSize }

/-- `Fetch(a)` (R49): alignment first, then admission, then the word. -/
def State.fetch (s : State) (a : Word) : Except Cause Word :=
  if !aligned4 a then .error .misalignedFetch
  else if !admitted s.params .fetch a 4 then .error .outOfBounds
  else .ok (s.readWord a)

/-- The key of a fetch's cache access (R154, R171). -/
def cacheKeyOf (k : CacheKey) (iw cur : Word) : Word :=
  match k with
  | .instructionWord => iw
  | .fetchAddress => cur

/-- The cache access of a fetched word (R154); none where there is no cache (log 7). -/
def State.observe (s : State) (iw : Word) : Option State :=
  s.cache.map fun c =>
    { s with cache := some (c.access s.params.tagMode (cacheKeyOf s.params.cacheKey iw s.pc)) }

end Sys2Proof.Machine
end

