-- ==== Sys2Proof/Machine/Flags.lean ====
section
/-! DEFINITION. The condition codes, CMP's flag computation and the branch condition (10_state.md R24 to R26,
41_data_processing.md R94, 44_branch.md R130 to R132). -/

namespace Sys2Proof.Machine

/-- `EQ`, "equal/zero" (R25). -/
def codeEQ : BitVec 4 := 0b0000#4

/-- "not-equal": a condition of a branch word, never a flags value (R25). -/
def codeNE : BitVec 4 := 0b0001#4

/-- `LT`, "less-than" (R25). -/
def codeLT : BitVec 4 := 0b1011#4

/-- `GT`, "greater-than" (R25). -/
def codeGT : BitVec 4 := 0b1100#4

/-- The signed difference of two words under each `CMP_MODE` (R94). -/
def cmpDifference (mode : CmpMode) (a b : Word) : Int :=
  match mode with
  | .wrap32 => (a - b).toInt
  | .exactSigned => a.toInt - b.toInt

/-- `CmpCode(a, b)` (R94). -/
def cmpCode (mode : CmpMode) (a b : Word) : BitVec 4 :=
  let d := cmpDifference mode a b
  if d = 0 then codeEQ else if d < 0 then codeLT else codeGT

/-- The flags word that holds a condition code: the code in bits [31:28], zero below (R24, R93). -/
def flagsOf (code : BitVec 4) : Word := code ++ 0#28

/-- `FLAGS[31:28]` (R130). -/
def State.condNibble (s : State) : BitVec 4 := s.flags.extractLsb' 28 4

/-- `FLAGS <- code << 28` (R93). -/
def State.setFlags (s : State) (code : BitVec 4) : State := { s with flags := flagsOf code }

/-- What a branch's condition comes to. -/
inductive CondResult where
  | pass
  | fail
  | unknown
deriving DecidableEq, Repr

/-- Pass or fail. -/
def CondResult.ofBool (b : Bool) : CondResult := if b then .pass else .fail

/-- `CondPass(cond)` against the flags nibble (R131), with `UNKNOWN_COND_POLICY` for the twelve other codes (R132). -/
def condPass (policy : UnknownCondPolicy) (cond nibble : BitVec 4) : CondResult :=
  if cond = codeEQ then .ofBool (nibble == codeEQ)
  else if cond = codeNE then .ofBool (nibble == codeLT || nibble == codeGT)
  else if cond = codeLT then .ofBool (nibble == codeLT)
  else if cond = codeGT then .ofBool (nibble == codeGT)
  else match policy with
    | .fault => .unknown
    | .neverTaken => .fail

end Sys2Proof.Machine
end

