-- ==== Sys2Proof/Machine/Operands.lean ====
section
/-! DEFINITION. Operand forms: `Operand2`, `MemOffset`, `EA` and `BranchOffset` (30_encoding.md R71 to R73,
43_load_store.md R115). -/

namespace Sys2Proof.Machine

/-- `Operand2(iw)`: the zero-extended immediate or the register; "No rotation, no shift, no carry-out" (R71). -/
def State.operand2 (s : State) : Operand2 → Word
  | .imm _ imm8 => imm8.setWidth 32
  | .reg _ rm => s.reg rm

/-- `MemOffset(iw)`: the register or the zero-extended 12-bit immediate (R72). -/
def State.memOffset (s : State) : Offset → Word
  | .imm imm12 => imm12.setWidth 32
  | .reg _ rm => s.reg rm

/-- `EA(iw)`: base plus offset modulo 2^32, always added (R115, R122). -/
def State.effectiveAddress (s : State) (f : MemFields) : Word := s.reg f.rn + s.memOffset f.off

/-- `BranchOffset(iw)`: the 26-bit value imm24:00, sign-extended (R73). -/
def branchOffset (imm24 : BitVec 24) : Word := (imm24 ++ 0b00#2).signExtend 32

/-- The target of a taken B or BL, `cur + 8 + BranchOffset` modulo 2^32 (R133). -/
def State.branchTarget (s : State) (imm24 : BitVec 24) : Word := s.pc + 8#32 + branchOffset imm24

end Sys2Proof.Machine
end

