-- ==== Sys2Proof/Machine/Branch.lean ====
section
/-! DEFINITION. The branch executor: B, BL and BX (44_branch.md). -/

namespace Sys2Proof.Machine

/-- A conditional branch (R133 to R136): taken as given, or pc advanced by 4 and counted not taken, or
`UnknownCondition` with no effect (R132). -/
def branchOn (i : Instr) (cond : BitVec 4) (s taken : State) : Result :=
  match condPass s.params.unknownCondPolicy cond s.condNibble with
  | .pass => .next (taken.retire .brTaken)
  | .fail => .next (s.advance.retire .brNotTaken)
  | .unknown => .next (s.raise .unknownCondition (some (encode i)) none)

/-- B (R133). -/
def execB (f : BranchFields) (s : State) : Result :=
  branchOn (.b f) f.cond s (s.setPc (s.branchTarget f.imm24))

/-- BL (R134): a taken BL writes `cur + 4` to r14. -/
def execBl (f : BranchFields) (s : State) : Result :=
  branchOn (.bl f) f.cond s ((s.setReg lrReg (s.pc + 4#32)).setPc (s.branchTarget f.imm24))

/-- BX (R137): the register's value as it is, whatever the condition field. -/
def execBx (f : BxFields) (s : State) : Result :=
  .next ((s.setPc (s.reg f.rm)).retire .brTaken)

end Sys2Proof.Machine
end

