-- ==== Sys2Proof/Machine/DataProcessing.lean ====
section
/-! DEFINITION. The data-processing unit: ADD, SUB, CMP, MOV and the twelve no-op opcodes (41_data_processing.md).
Every operand is read in the state the instruction starts in, before the destination is written (R90, R100); the
condition field and bit 20 are not read (R101, R102). -/

namespace Sys2Proof.Machine

/-- A data-processing result: `WriteBack(Rd, r)`, then `Retire(DP)` (R91, R92, R95). -/
def dpWrite (f : DpFields) (r : Word) (s : State) : Result :=
  .next ((s.writeBack f.rd r).retire .dp)

/-- An instruction that writes no register raises `UnpredictablePcField` when its destination field is 15
(R98, R120, R192) and otherwise goes on as given. -/
def guardPcField (i : Instr) (rd : Reg) (s : State) (go : Result) : Result :=
  if rd = pcReg then .next (s.raise .unpredictablePcField (some (encode i)) none) else go

/-- A no-op opcode (R99). -/
def dpNoop (i : Instr) (f : DpFields) (s : State) : Result :=
  guardPcField i f.rd s (.next (s.advance.retire .dp))

/-- ADD (R91). -/
def execAdd (f : DpFields) (s : State) : Result := dpWrite f (s.reg f.rn + s.operand2 f.op2) s

/-- SUB (R92). -/
def execSub (f : DpFields) (s : State) : Result := dpWrite f (s.reg f.rn - s.operand2 f.op2) s

/-- CMP (R93). -/
def execCmp (f : DpFields) (s : State) : Result :=
  guardPcField (.cmp f) f.rd s
    (.next (((s.setFlags (cmpCode s.params.cmpMode (s.reg f.rn) (s.operand2 f.op2))).advance).retire .dp))

/-- MOV (R95); the Rn field is not read. -/
def execMov (f : DpFields) (s : State) : Result := dpWrite f (s.operand2 f.op2) s

/-- Opcode 0000 (R99). -/
def execDpnopAnd (f : DpFields) (s : State) : Result := dpNoop (.dpnopAnd f) f s

/-- Opcode 0001 (R99). -/
def execDpnopEor (f : DpFields) (s : State) : Result := dpNoop (.dpnopEor f) f s

/-- Opcode 0011 (R99). -/
def execDpnopRsb (f : DpFields) (s : State) : Result := dpNoop (.dpnopRsb f) f s

/-- Opcode 0101 (R99). -/
def execDpnopAdc (f : DpFields) (s : State) : Result := dpNoop (.dpnopAdc f) f s

/-- Opcode 0110 (R99). -/
def execDpnopSbc (f : DpFields) (s : State) : Result := dpNoop (.dpnopSbc f) f s

/-- Opcode 0111 (R99). -/
def execDpnopRsc (f : DpFields) (s : State) : Result := dpNoop (.dpnopRsc f) f s

/-- Opcode 1000 (R99). -/
def execDpnopTst (f : DpFields) (s : State) : Result := dpNoop (.dpnopTst f) f s

/-- Opcode 1001 (R99). -/
def execDpnopTeq (f : DpFields) (s : State) : Result := dpNoop (.dpnopTeq f) f s

/-- Opcode 1011 (R99). -/
def execDpnopCmn (f : DpFields) (s : State) : Result := dpNoop (.dpnopCmn f) f s

/-- Opcode 1100 (R99). -/
def execDpnopOrr (f : DpFields) (s : State) : Result := dpNoop (.dpnopOrr f) f s

/-- Opcode 1110 (R99). -/
def execDpnopBic (f : DpFields) (s : State) : Result := dpNoop (.dpnopBic f) f s

/-- Opcode 1111 (R99). -/
def execDpnopMvn (f : DpFields) (s : State) : Result := dpNoop (.dpnopMvn f) f s

end Sys2Proof.Machine
end

