-- ==== Sys2Proof/Machine/LoadStore.lean ====
section
/-! DEFINITION. The load/store sequencer (43_load_store.md). The checks come in R124's order: `UnpredictablePcField`
(stores), `MisalignedData` (word forms), `OutOfBounds`; the first that applies is raised and nothing is touched. -/

namespace Sys2Proof.Machine

/-- A word access needs a multiple of 4, else `MisalignedData(ea)` (R47). -/
def guardAligned (i : Instr) (ea : Word) (s : State) (go : Result) : Result :=
  if aligned4 ea then go else .next (s.raise .misalignedData (some (encode i)) (some ea))

/-- An access that is not admitted raises `OutOfBounds(ea)` (R44). -/
def guardAdmitted (i : Instr) (k : Access) (ea : Word) (n : Nat) (s : State) (go : Result) : Result :=
  if admitted s.params k ea n then go else .next (s.raise .outOfBounds (some (encode i)) (some ea))

/-- LDR (R116). -/
def execLdr (f : MemFields) (s : State) : Result :=
  let ea := s.effectiveAddress f
  guardAligned (.ldr f) ea s
    (guardAdmitted (.ldr f) .load ea 4 s (.next ((s.writeBack f.rd (s.readWord ea)).retire .mem)))

/-- LDRB (R117): the byte is zero-extended. -/
def execLdrb (f : MemFields) (s : State) : Result :=
  let ea := s.effectiveAddress f
  guardAdmitted (.ldrb f) .load ea 1 s (.next ((s.writeBack f.rd ((s.readByte ea).setWidth 32)).retire .mem))

/-- STR (R118). -/
def execStr (f : MemFields) (s : State) : Result :=
  let ea := s.effectiveAddress f
  guardPcField (.str f) f.rd s
    (guardAligned (.str f) ea s
      (guardAdmitted (.str f) .store ea 4 s (.next (((s.writeWord ea (s.reg f.rd)).advance).retire .mem))))

/-- STRB (R119): bits [7:0] of the source. -/
def execStrb (f : MemFields) (s : State) : Result :=
  let ea := s.effectiveAddress f
  guardPcField (.strb f) f.rd s
    (guardAdmitted (.strb f) .store ea 1 s
      (.next (((s.writeByte ea (byteOfWord (s.reg f.rd) 0)).advance).retire .mem)))

end Sys2Proof.Machine
end

