-- ==== Sys2Proof/Machine/Multiply.lean ====
section
/-! DEFINITION. The multiply unit (42_multiply.md). -/

namespace Sys2Proof.Machine

/-- MUL's destination register under `MUL_RD_FIELD` (R110, R111). -/
def mulDest (m : MulRdField) (f : MulFields) : Reg :=
  match m with
  | .bits19to16 => f.rn
  | .bits15to12 => f.rd

/-- MUL: the low 32 bits of the product, written back and retired as data processing (R110, R113). -/
def execMul (f : MulFields) (s : State) : Result :=
  .next ((s.writeBack (mulDest s.params.mulRdField f) (s.reg f.rn * s.reg f.rs)).retire .dp)

end Sys2Proof.Machine
end

