-- ==== Sys2Proof/Machine/Dispatch.lean ====
section
/-! DEFINITION. The dispatch table (45_step_loop.md R162): one arm per instruction, one meaning per arm. -/

namespace Sys2Proof.Machine

def exec (i : Instr) (s : State) : Host.Outcome State Fault Refusal :=
  match i with
  | .bx f => Sys2Proof.Machine.execBx f s
  | .mul f => Sys2Proof.Machine.execMul f s
  | .ldr f => Sys2Proof.Machine.execLdr f s
  | .ldrb f => Sys2Proof.Machine.execLdrb f s
  | .str f => Sys2Proof.Machine.execStr f s
  | .strb f => Sys2Proof.Machine.execStrb f s
  | .add f => Sys2Proof.Machine.execAdd f s
  | .sub f => Sys2Proof.Machine.execSub f s
  | .cmp f => Sys2Proof.Machine.execCmp f s
  | .mov f => Sys2Proof.Machine.execMov f s
  | .dpnopAnd f => Sys2Proof.Machine.execDpnopAnd f s
  | .dpnopEor f => Sys2Proof.Machine.execDpnopEor f s
  | .dpnopRsb f => Sys2Proof.Machine.execDpnopRsb f s
  | .dpnopAdc f => Sys2Proof.Machine.execDpnopAdc f s
  | .dpnopSbc f => Sys2Proof.Machine.execDpnopSbc f s
  | .dpnopRsc f => Sys2Proof.Machine.execDpnopRsc f s
  | .dpnopTst f => Sys2Proof.Machine.execDpnopTst f s
  | .dpnopTeq f => Sys2Proof.Machine.execDpnopTeq f s
  | .dpnopCmn f => Sys2Proof.Machine.execDpnopCmn f s
  | .dpnopOrr f => Sys2Proof.Machine.execDpnopOrr f s
  | .dpnopBic f => Sys2Proof.Machine.execDpnopBic f s
  | .dpnopMvn f => Sys2Proof.Machine.execDpnopMvn f s
  | .b f => Sys2Proof.Machine.execB f s
  | .bl f => Sys2Proof.Machine.execBl f s

end Sys2Proof.Machine
end

