-- ==== Sys2Proof/Machine/Sequencer.lean ====
section
/-! DEFINITION. The step sequencer up to dispatch (45_step_loop.md R150 to R155, R161, R163). -/

namespace Sys2Proof.Machine

/-- What the sequencer comes to before an executor runs. -/
inductive FrontEnd where
  /-- The step ends without an instruction: a halt, or a fault taken before dispatch. -/
  | ends (s : State)
  /-- The instruction to execute, and the state after its fetch and cache access. -/
  | runs (i : Instr) (s : State)
  /-- No step exists (logs 6 and 7). -/
  | stuck (r : Fault)
deriving DecidableEq, Repr

/-- Parts 4 and 5 of the step, for a word fetched from `cur` = pc: the cache access, then `Classify` (R154, R155);
an unrecognised word raises `DecodeError(cur, iw)` after its access (R161). -/
def State.classifyFetched (s : State) (iw : Word) : FrontEnd :=
  match s.observe iw with
  | none => .stuck .noCache
  | some t =>
    match decodeWord iw with
    | .ok i => .runs i t
    | .error _ => .ends (t.raise .decodeError (some iw) none)

/-- Parts 1 to 5 of a step in RUNNING, in R163's order: halt test (R151), budget (R152), fetch (R153). -/
def State.runningFrontEnd (s : State) : FrontEnd :=
  if s.pc = 0#32 then .ends s.halt
  else if s.counters.total = s.params.stepLimit then .ends (s.raise .nonTermination none none)
  else
    match s.fetch s.pc with
    | .error c => .ends (s.raise c none (some s.pc))
    | .ok iw => s.classifyFetched iw

/-- "Only `RUNNING` has a step" (R150). -/
def State.frontEnd (s : State) : FrontEnd :=
  match s.runState with
  | .running => s.runningFrontEnd
  | .idle => .stuck (.notRunning .idle)
  | .halted => .stuck (.notRunning .halted)
  | .faulted => .stuck (.notRunning .faulted)

/-- The code regions extended by `[a, a + 4)` where a fetch at a is not admitted yet. -/
def withCodeAt (p : Params) (a : Word) : Params :=
  if admitted p .fetch a 4 then p else { p with codeRegions := ⟨a, 4⟩ :: p.codeRegions }

/-- The parameters with a budget that is not spent at the count given (R152). -/
def withBudget (p : Params) (total : Nat) : Params :=
  if total = p.stepLimit then { p with stepLimit := total + 1 } else p

/-- The address the next step fetches at: pc, or the reset entry where no fetch could take place at pc
(0 halts, R151; an unaligned pc faults, R49). -/
def State.fetchableAddress (s : State) : Word :=
  if s.pc = 0#32 || !aligned4 s.pc then entryAtReset else s.pc

/-- A state in which the next step fetches at `fetchableAddress`: RUNNING, with a cache, a budget and code there.
What the state has already is kept. -/
def State.readyToFetch (s : State) : State :=
  { s.setPc s.fetchableAddress with
    runState := .running
    cache := some (s.cache.getD (Cache.fresh cacheSizeAtReset))
    params := withBudget (withCodeAt s.params s.fetchableAddress) s.counters.total }

end Sys2Proof.Machine
end

