-- ==== Sys2Proof/Machine/Step.lean ====
section
/-! DEFINITION. The step (45_step_loop.md R163), and the placing of a word where the next step fetches. -/

namespace Sys2Proof.Machine

/-- One step: the sequencer, then the executor of the instruction it decoded (R163). A fault of the spec is a next
state (log 5). -/
def step (s : State) : Host.Outcome State Fault Refusal :=
  match s.frontEnd with
  | .ends t => .next t
  | .runs i t => exec i t
  | .stuck r => .fault r

/-- The state with the instruction word of a table row stored where the next step fetches (log 3): it stands for the
host placing a routine and calling it. From `State.reset` it adds one 4-byte code region at the entry and its word. -/
def State.withFetchWord (s : State) (nbits w : Nat) : State :=
  s.readyToFetch.writeWord s.fetchableAddress (tableWord nbits w)

end Sys2Proof.Machine
end

