-- ==== Sys2Proof/Machine/HostInterface.lean ====
section
/-! DEFINITION. The host's transactions (10_state.md section 8, 70_reset_and_hazards.md). They act between calls, never
inside a step (R197). A move for which the spec gives no transition is rejected by name (log 12). -/

namespace Sys2Proof.Machine

/-- Why a transaction is not one the block has. -/
inductive HostRejection where
  /-- "`start` while RUNNING is not a transition" (R150); the host acts only between calls (R197). Safe. -/
  | callRunning
  /-- `construct` is "once per run" (R35) and a cache exists. Safe. -/
  | alreadyConstructed
  /-- "no call can start without a cache" (R181). Safe. -/
  | noCache
  /-- A call has "up to four arguments" (R213). Safe. -/
  | tooManyArguments
  /-- The address is in no region the host supplies (R43). Safe. -/
  | outsideRegions
deriving DecidableEq, Repr

/-- What a transaction that changes the block answers. -/
inductive HostAnswer where
  | done (s : State)
  /-- `ConfigError(N)`: nothing is built (R181, R194); the record is R186's row 8. -/
  | configError (r : FaultRecord) (n : Nat)
  | rejected (why : HostRejection)
deriving DecidableEq, Repr

/-- What the block presents when the run state leaves RUNNING (R36). -/
inductive CallReport where
  | halted (x0 : Word)
  | faulted (r : FaultRecord)
deriving DecidableEq, Repr

/-- The cache's counts as the host reads them (R36, R178). -/
structure CacheStats where
  hits : Nat
  misses : Nat
  requests : Nat
deriving DecidableEq, Repr

/-- A block at power-on: IDLE and with no cache; everything else is unspecified and unread (R210, R39; log 10). -/
def State.isPowerOn (s : State) : Bool := s.runState == .idle && s.cache.isNone

/-- `construct(N)` (R35, R181). -/
def State.construct (s : State) (n : Nat) : HostAnswer :=
  match s.cache with
  | some _ => .rejected .alreadyConstructed
  | none =>
    if validCacheSize n then .done { s with cache := some (Cache.fresh n) }
    else .configError (faultRecord .configError none none none) n

/-- An argument of `start`, 0 when not supplied (R213). -/
def argument (args : List Word) (k : Nat) : Word := args.getD k 0#32

/-- `start(entry, a0, …)` with up to four arguments: `reset_for_call`, which enters RUNNING (R35, R150, R211). -/
def State.start (s : State) (entry : Word) (args : List Word) : HostAnswer :=
  if s.runState = .running then .rejected .callRunning
  else if s.cache = none then .rejected .noCache
  else if 4 < args.length then .rejected .tooManyArguments
  else .done (s.resetForCall entry (argument args 0) (argument args 1) (argument args 2) (argument args 3))

/-- The host fixes the parameters, outside a call (R28, R35). R28 says "when the block is built or a call starts" and not
which parameter at which of the two. DESIGN CHOICE, safe: every parameter but `CACHE_SIZE`, which `construct` fixes, may be
set at any time outside RUNNING, also between two calls of one run with its cache (log 20). -/
def State.configure (s : State) (p : Params) : HostAnswer :=
  if s.runState = .running then .rejected .callRunning else .done { s with params := p }

/-- The address lies in a region the host supplies: the buffers and the code, not the stack (R42, R43). -/
def State.hostSupplies (s : State) (a : Word) : Bool :=
  (s.params.bufferRegions ++ s.params.codeRegions).any (fun r => regionHolds r a 1)

/-- The host supplies one byte of a code or buffer region, outside a call (R35, R43). -/
def State.supplyByte (s : State) (a : Word) (b : Byte) : HostAnswer :=
  if s.runState = .running then .rejected .callRunning
  else if s.hostSupplies a then .done (s.writeByte a b)
  else .rejected .outsideRegions

/-- `halted(x[0])` or `faulted(record)` (R36, R158, R198). -/
def State.report (s : State) : Option CallReport :=
  match s.runState with
  | .halted => some (.halted (s.reg 0))
  | .faulted => s.record.map .faulted
  | .idle => none
  | .running => none

/-- What the host reads once a call has ended and until the next `start`: all state (R158, R198). -/
def State.afterCall {α : Type} (s : State) (x : Option α) : Option α :=
  match s.runState with
  | .idle => none
  | .running => none
  | .halted => x
  | .faulted => x

/-- A register, the PC among them (R158, R198). Before the first `start` the registers are unread (R39, R210). -/
def State.hostReg (s : State) (r : Reg) : Option Word := s.afterCall (some (s.reg r))

/-- FLAGS (R158, R198). Before the first `start` it is unread (R39, R210). -/
def State.hostFlags (s : State) : Option Word := s.afterCall (some s.flags)

/-- Slot i of the cache: its tag, or nothing while it is invalid (R158, R198; an invalid slot's tag is never read, R179). -/
def State.hostSlot (s : State) (i : Nat) : Option (Option Word) :=
  s.afterCall (s.cache.bind fun c => c.slots[i]?.map fun x => if x.valid then some x.tag else none)

/-- The counters, readable "at any time outside `RUNNING`" (R36). R210 calls them unread before the first `start`;
DESIGN CHOICE, safe: in IDLE the answer is whatever the state holds, which is unspecified (log 19). -/
def State.hostCounters (s : State) : Option Counters :=
  if s.runState = .running then none else some s.counters

/-- The cache's hit, miss and request counts, readable outside RUNNING (R36). -/
def State.hostCacheStats (s : State) : Option CacheStats :=
  if s.runState = .running then none
  else s.cache.map fun c => { hits := c.hits, misses := c.misses, requests := c.requests }

/-- A byte of memory: of the regions the host supplied at any time outside RUNNING (R36), and of the stack too once a call
has ended (R158, R198). DESIGN CHOICE, safe: before the first `start` the host reads no stack byte, because R210 calls
those bytes unspecified and unread and R36 names only the regions the host supplied (log 19). -/
def State.hostByte (s : State) (a : Word) : Option Byte :=
  match s.runState with
  | .running => none
  | .idle => if s.hostSupplies a then some (s.readByte a) else none
  | .halted => if admitted s.params .load a 1 then some (s.readByte a) else none
  | .faulted => if admitted s.params .load a 1 then some (s.readByte a) else none

end Sys2Proof.Machine
end

