-- ==== Sys2Proof/WellFormed.lean ====
section
/-! DEFINITION. Which instructions have a word of their own, and which parameters R8 and R41 allow.
A data-processing term is ill formed when its bits would make the word a MUL or a BX, which are tested first (R74). -/

namespace Sys2Proof

/-- The operand's bits [7:4] are not `1001`, which would make the word a MUL (R62, R82). -/
def Operand2.notMul : Operand2 → Bool
  | .imm _ imm8 => imm8.extractLsb' 4 4 != 0b1001#4
  | .reg ign _ => ign.extractLsb' 0 4 != 0b1001#4

/-- A data-processing word's fields with opcode `1001` spell the BX pattern (R66, R76). -/
def DpFields.isBxPattern (f : DpFields) : Bool :=
  match f.op2 with
  | .imm _ _ => false
  | .reg ign _ => !f.ignS && f.rn == 15 && f.rd == 15 && ign == 0b11110001#8

/-- An instruction is well formed when its own encoding is classified as itself (R74 to R77). -/
def Instr.wf : Instr → Bool
  | .bx _ => true
  | .mul _ => true
  | .ldr _ => true
  | .ldrb _ => true
  | .str _ => true
  | .strb _ => true
  | .add f => f.op2.notMul
  | .sub f => f.op2.notMul
  | .cmp f => f.op2.notMul
  | .mov f => f.op2.notMul
  | .dpnopAnd f => f.op2.notMul
  | .dpnopEor f => f.op2.notMul
  | .dpnopRsb f => f.op2.notMul
  | .dpnopAdc f => f.op2.notMul
  | .dpnopSbc f => f.op2.notMul
  | .dpnopRsc f => f.op2.notMul
  | .dpnopTst f => f.op2.notMul
  | .dpnopTeq f => f.op2.notMul && !f.isBxPattern
  | .dpnopCmn f => f.op2.notMul
  | .dpnopOrr f => f.op2.notMul
  | .dpnopBic f => f.op2.notMul
  | .dpnopMvn f => f.op2.notMul
  | .b _ => true
  | .bl _ => true

/-- Two regions share no byte (R41). -/
def Region.disjoint (p q : Region) : Bool :=
  p.base.toNat + p.len ≤ q.base.toNat || q.base.toNat + q.len ≤ p.base.toNat

/-- The region lies inside the address space (R40). -/
def Region.inSpace (p : Region) : Bool :=
  p.base.toNat + p.len ≤ 2 ^ addrWidth

/-- Every region of the list is disjoint from every later one. -/
def regionsDisjoint : List Region → Bool
  | [] => true
  | p :: ps => ps.all p.disjoint && regionsDisjoint ps

/-- All regions of a layout: the stack (R42), the buffers and the code (R41). -/
def Params.regions (p : Params) : List Region :=
  ⟨p.stackBase, stackSize⟩ :: (p.bufferRegions ++ p.codeRegions)

/-- What the host owes: "Regions do not overlap" (R41), they lie in the 32-bit space (R40), and
`STEP_LIMIT` is at least 1 (R8). -/
def Params.wf (p : Params) : Bool :=
  regionsDisjoint p.regions && p.regions.all Region.inSpace && decide (1 ≤ p.stepLimit)

end Sys2Proof
end

