-- ==== Sys2Proof/Safety.lean ====
section
/-! DEFINITION. What counts as a safe run, in the terms the statements use: the invariant of every state a run passes
through, the frames (what an instruction leaves unchanged), and the shapes of a step's end. -/

namespace Sys2Proof.Machine

/-- FLAGS holds one of the three codes and zero below (R24, R25). -/
def State.flagsOk (s : State) : Prop :=
  s.flags = flagsOf codeEQ ∨ s.flags = flagsOf codeLT ∨ s.flags = flagsOf codeGT

/-- The counter invariants (R30). -/
def Counters.ok (c : Counters) : Prop :=
  c.total = c.dp + c.mem + c.br ∧ c.br = c.taken + c.nottaken

/-- A cache of an admitted size with that many slots, each valid tag within `30 - log2(N)` bits, and
`hits + misses == requests` (R170, R178, R181). -/
def Cache.ok (c : Cache) : Prop :=
  validCacheSize c.size = true ∧ c.slots.length = c.size
    ∧ (∀ x ∈ c.slots, x.valid = true → x.tag.toNat < 2 ^ (30 - cacheLog2 c.size))
    ∧ c.hits + c.misses = c.requests

/-- The fault record is there exactly when the run state is FAULTED (R33), under its cause's code, with the PC (R186). -/
def State.recordOk (s : State) : Prop :=
  match s.runState with
  | .faulted => ∃ r, s.record = some r ∧ r.code = r.cause.code ∧ r.pc = some s.pc
  | _ => s.record = none

/-- The invariant of the states of a run: memory in its canonical form, FLAGS legal, the counters' sums, the budget,
the fault record and the cache (R24, R25, R30, R33, R152, R170, R178). -/
structure State.Inv (s : State) : Prop where
  memory : Memory.wf s.mem = true
  flags : s.flagsOk
  counters : s.counters.ok
  budget : s.counters.total ≤ s.params.stepLimit
  record : s.recordOk
  cache : ∀ c, s.cache = some c → c.ok

/-- Every register but those listed is unchanged. -/
def sameRegsExcept (ds : List Reg) (s t : State) : Prop := ∀ r : Reg, r ∉ ds → t.reg r = s.reg r

/-- Every byte of memory reads as before. -/
def sameMemory (s t : State) : Prop := ∀ a : Word, t.readByte a = s.readByte a

/-- Every byte reads as before but the n bytes from a on. -/
def sameMemoryOutside (a : Word) (n : Nat) (s t : State) : Prop :=
  ∀ b : Word, (∀ k : Nat, k < n → b ≠ a + BitVec.ofNat 32 k) → t.readByte b = s.readByte b

/-- The run state, the fault record, the cache and the parameters are unchanged. -/
def sameControl (s t : State) : Prop :=
  t.runState = s.runState ∧ t.record = s.record ∧ t.cache = s.cache ∧ t.params = s.params

/-- `WriteBack(d, v)` as seen from outside (R156): d holds v, the PC is `cur + 4` unless it is d, and every other
register is unchanged. -/
def wroteBack (d : Reg) (v : Word) (s t : State) : Prop :=
  t.reg d = v ∧ (d ≠ pcReg → t.pc = s.pc + 4#32) ∧ sameRegsExcept [d, pcReg] s t

/-- The instruction retired as k and advanced the PC by 4, writing no other register (R23). -/
def wentOn (s t : State) : Prop := t.pc = s.pc + 4#32 ∧ sameRegsExcept [pcReg] s t

/-- The counters are those of one more retired instruction of the kind (R29, R157). -/
def countedAs (k : Retired) (s t : State) : Prop := t.counters = s.counters.count k

/-- A RUNNING state whose PC is 0 halts at its next step (R151, R139, 90_conflicts.md C3). -/
def haltsIfZero (t : State) : Prop := t.runState = .running → t.pc = 0#32 → step t = .next t.halt

/-- The condition codes a branch recognises (R131). -/
def recognisedCond (cond : BitVec 4) : Prop := cond = 0b0000#4 ∨ cond = 0b0001#4 ∨ cond = 0b1011#4 ∨ cond = 0b1100#4

/-- A recognised condition passes against the flags nibble: R131's table. -/
def condHolds (cond nibble : BitVec 4) : Prop :=
  (cond = 0b0000#4 ∧ nibble = 0b0000#4) ∨ (cond = 0b0001#4 ∧ (nibble = 0b1011#4 ∨ nibble = 0b1100#4))
    ∨ (cond = 0b1011#4 ∧ nibble = 0b1011#4) ∨ (cond = 0b1100#4 ∧ nibble = 0b1100#4)

/-- The branch is not taken: a recognised condition that does not pass, or any other under policy `NeverTaken`
(R131, R132, R135). -/
def condFails (s : State) (cond : BitVec 4) : Prop :=
  (recognisedCond cond ∧ ¬ condHolds cond s.condNibble)
    ∨ (¬ recognisedCond cond ∧ s.params.unknownCondPolicy = .neverTaken)

/-- The outcome ends FAULTED with this record and nothing else is changed (R195, R198). -/
def faultsWith (s : State) (r : FaultRecord) (o : Result) : Prop :=
  ∃ t, o = .next t ∧ t.runState = .faulted ∧ t.record = some r
    ∧ t.regs = s.regs ∧ t.flags = s.flags ∧ t.counters = s.counters ∧ t.mem = s.mem ∧ t.cache = s.cache
    ∧ t.params = s.params

/-- The state after the cache access of the word fetched at the PC, keyed by the word or by its address (R154, R171). -/
def afterAccess (s : State) (c : Cache) : State :=
  { s with cache := some (c.access s.params.tagMode
      (match s.params.cacheKey with
        | .instructionWord => s.readWord s.pc
        | .fetchAddress => s.pc)) }

/-- Every one of the n bytes `a … a+n−1` lies in the region (R41). -/
def holdsBytes (r : Region) (a : Word) (n : Nat) : Prop :=
  ∀ k, k < n → r.base.toNat ≤ a.toNat + k ∧ a.toNat + k < r.base.toNat + r.len

/-- R41's table: all n bytes lie in ONE region whose column for the kind of access says yes. The statements say it this
way, not through the machine's `admitted`. -/
def admits (p : Params) (kind : Access) (a : Word) (n : Nat) : Prop :=
  match kind with
  | .fetch => ∃ r ∈ p.codeRegions, holdsBytes r a n
  | .load => holdsBytes ⟨p.stackBase, 1024⟩ a n ∨ (∃ r ∈ p.bufferRegions, holdsBytes r a n)
      ∨ (∃ r ∈ p.codeRegions, holdsBytes r a n)
  | .store => holdsBytes ⟨p.stackBase, 1024⟩ a n ∨ (∃ r ∈ p.bufferRegions, holdsBytes r a n)

/-- The address is a multiple of 4 (R47, R49), said without the machine's `aligned4`. -/
def multipleOf4 (a : Word) : Prop := a.toNat % 4 = 0

/-- A step in s fetches: RUNNING, PC neither 0 nor unaligned nor outside the code, the budget not spent
(R151, R152, R153). -/
def fetches (s : State) : Prop :=
  s.runState = .running ∧ s.pc ≠ 0#32 ∧ s.counters.total ≠ s.params.stepLimit ∧ multipleOf4 s.pc
    ∧ admits s.params .fetch s.pc 4

/-- The host reads all of the state: every register, FLAGS, the counters, every byte of every region, the cache's counts
and its slots, but for the tags of invalid ones (R36, R158, R198, R179). -/
def hostReadsAll (s : State) : Prop :=
  (∀ r : Reg, s.hostReg r = some (s.reg r)) ∧ s.hostFlags = some s.flags ∧ s.hostCounters = some s.counters
    ∧ (∀ a : Word, admits s.params .load a 1 → s.hostByte a = some (s.readByte a))
    ∧ ∀ c, s.cache = some c → s.hostCacheStats = some ⟨c.hits, c.misses, c.requests⟩
      ∧ ∀ i, i < c.slots.length →
        s.hostSlot i = some (if (c.slot i).valid then some (c.slot i).tag else none)

/-- Two second operands that differ in ignored bits only: [11:8] of an immediate, [11:4] of a register (R62). -/
def sameReadOperand : Operand2 → Operand2 → Prop
  | .imm _ v, .imm _ w => v = w
  | .reg _ q, .reg _ r => q = r
  | .imm _ _, .reg _ _ => False
  | .reg _ _, .imm _ _ => False

/-- Two offsets that differ in ignored bits only: [11:4] of a register (R64, R122). -/
def sameReadOffset : Offset → Offset → Prop
  | .imm v, .imm w => v = w
  | .reg _ q, .reg _ r => q = r
  | .imm _, .reg _ _ => False
  | .reg _ _, .imm _ => False

/-- The two states agree in everything but the cache's contents: both have one or neither has (R180). -/
def agreeButCache (s t : State) : Prop :=
  ({ s with cache := none } : State) = { t with cache := none } ∧ s.cache.isSome = t.cache.isSome

/-- The outcome with the word of its fault record left out: what ignored bits of a word could still show in. -/
def withoutWord : Result → Result
  | .next t => .next { t with record := t.record.map fun r => { r with word := none } }
  | .fault f => .fault f
  | .refused r => .refused r

/-- t is reached from s in n steps. -/
inductive ReachesIn : Nat → State → State → Prop where
  | refl (s : State) : ReachesIn 0 s s
  | step {n : Nat} {s t u : State} : ReachesIn n s t → step t = .next u → ReachesIn (n + 1) s u

end Sys2Proof.Machine
end

