-- ==== Sys2Proof/Certificates/Slice0/Obligations.lean ====
section
/-! DEFINITION. The statements for the provers. Each docstring cites the rules it formalises; where it rests on a choice
the spec marks as its own (92_eei_decisions.md Dn) or on a choice of the model (notes/assumptions, log n) it says so. -/

open Sys2Proof Sys2Proof.Machine

/-! ### The decoder and the encoder -/

/-- Every well-formed instruction is read back from its own word (formats R62 to R66, with the spec's decisions D11 and
D15 on field positions; the ignored bits are kept by the model's choice, log 8). -/
def Obligations.DecodeOfEncode : Prop :=
  ∀ i : Instr, i.wf = true → decodeWord (encode i) = .ok i

/-- Every word that decodes is the encoding of the well-formed instruction it decodes to: no bit of a word is dropped,
so the fault record's word is the fetched word (R33; log 8). -/
def Obligations.EncodeOfDecode : Prop :=
  ∀ (iw : Word) (i : Instr), decodeWord iw = .ok i → i.wf = true ∧ encode i = iw

/-- Words written out in 95_test_vectors.md section 2.2 decode to the instructions that section names. -/
def Obligations.WordsOfTheSpecDecode : Prop :=
  decodeWord 0xE12FFF1E#32 = .ok (.bx ⟨0xE#4, 14⟩)
  ∧ decodeWord 0xE0040094#32 = .ok (.mul ⟨0xE#4, 0#6, 4, 0, 0, 4#4⟩)
  ∧ decodeWord 0xE7D10002#32 = .ok (.ldrb ⟨0xE#4, true, true, false, 1, 0, .reg 0#8 2⟩)
  ∧ decodeWord 0xE2810080#32 = .ok (.add ⟨0xE#4, false, 1, 0, .imm 0#4 0x80#8⟩)
  ∧ decodeWord 0xE14F0000#32 = .ok (.cmp ⟨0xE#4, false, 15, 0, .reg 0#8 0⟩)
  ∧ decodeWord 0x0AFFFFFE#32 = .ok (.b ⟨0#4, 0xFFFFFE#24⟩)
  ∧ decodeWord 0xEF000000#32 = .error (.unrecognized 0xEF000000#32)

/-- The tests of `Classify` in their order (R74). -/
def Obligations.ClassifyInOrder : Prop :=
  ∀ iw : Word,
    (classify iw = .bx ↔ iw.extractLsb' 4 24 = 0x12FFF1#24)
    ∧ (classify iw = .mul ↔ iw.extractLsb' 4 24 ≠ 0x12FFF1#24 ∧ iw.extractLsb' 26 2 = 0b00#2
        ∧ iw.extractLsb' 4 4 = 0b1001#4)
    ∧ (classify iw = .mem ↔ iw.extractLsb' 26 2 = 0b01#2)
    ∧ (classify iw = .dp ↔ iw.extractLsb' 4 24 ≠ 0x12FFF1#24 ∧ iw.extractLsb' 26 2 = 0b00#2
        ∧ iw.extractLsb' 4 4 ≠ 0b1001#4)
    ∧ (classify iw = .branch ↔ iw.extractLsb' 25 3 = 0b101#3)
    ∧ (classify iw = .unrecognized ↔ iw.extractLsb' 26 2 = 0b11#2 ∨ iw.extractLsb' 25 3 = 0b100#3)

/-- The class predicates as masks on the whole word (R75, which the spec derives from R74): with the order of the
tests for the three that overlap (R76). -/
def Obligations.ClassesByMask : Prop :=
  ∀ iw : Word,
    (classify iw = .bx ↔ iw &&& 0x0FFFFFF0#32 = 0x012FFF10#32)
    ∧ (classify iw = .mul ↔ iw &&& 0x0C0000F0#32 = 0x00000090#32)
    ∧ (classify iw = .mem ↔ iw &&& 0x0C000000#32 = 0x04000000#32)
    ∧ (classify iw = .dp ↔ iw &&& 0x0C000000#32 = 0x00000000#32 ∧ iw &&& 0x0C0000F0#32 ≠ 0x00000090#32
        ∧ iw &&& 0x0FFFFFF0#32 ≠ 0x012FFF10#32)
    ∧ (classify iw = .branch ↔ iw &&& 0x0E000000#32 = 0x0A000000#32)

/-- The opcode, (L, B) and link maps select the instruction (R77, R78, R79). -/
def Obligations.MapsSelectTheInstruction : Prop :=
  (∀ iw : Word, classify iw = .dp →
    (iw.extractLsb' 21 4 = 0b0100#4 → decodeWord iw = .ok (.add (dpFieldsOf iw)))
    ∧ (iw.extractLsb' 21 4 = 0b0010#4 → decodeWord iw = .ok (.sub (dpFieldsOf iw)))
    ∧ (iw.extractLsb' 21 4 = 0b1010#4 → decodeWord iw = .ok (.cmp (dpFieldsOf iw)))
    ∧ (iw.extractLsb' 21 4 = 0b1101#4 → decodeWord iw = .ok (.mov (dpFieldsOf iw)))
    ∧ (iw.extractLsb' 21 4 = 0b0000#4 → decodeWord iw = .ok (.dpnopAnd (dpFieldsOf iw)))
    ∧ (iw.extractLsb' 21 4 = 0b0001#4 → decodeWord iw = .ok (.dpnopEor (dpFieldsOf iw)))
    ∧ (iw.extractLsb' 21 4 = 0b0011#4 → decodeWord iw = .ok (.dpnopRsb (dpFieldsOf iw)))
    ∧ (iw.extractLsb' 21 4 = 0b0101#4 → decodeWord iw = .ok (.dpnopAdc (dpFieldsOf iw)))
    ∧ (iw.extractLsb' 21 4 = 0b0110#4 → decodeWord iw = .ok (.dpnopSbc (dpFieldsOf iw)))
    ∧ (iw.extractLsb' 21 4 = 0b0111#4 → decodeWord iw = .ok (.dpnopRsc (dpFieldsOf iw)))
    ∧ (iw.extractLsb' 21 4 = 0b1000#4 → decodeWord iw = .ok (.dpnopTst (dpFieldsOf iw)))
    ∧ (iw.extractLsb' 21 4 = 0b1001#4 → decodeWord iw = .ok (.dpnopTeq (dpFieldsOf iw)))
    ∧ (iw.extractLsb' 21 4 = 0b1011#4 → decodeWord iw = .ok (.dpnopCmn (dpFieldsOf iw)))
    ∧ (iw.extractLsb' 21 4 = 0b1100#4 → decodeWord iw = .ok (.dpnopOrr (dpFieldsOf iw)))
    ∧ (iw.extractLsb' 21 4 = 0b1110#4 → decodeWord iw = .ok (.dpnopBic (dpFieldsOf iw)))
    ∧ (iw.extractLsb' 21 4 = 0b1111#4 → decodeWord iw = .ok (.dpnopMvn (dpFieldsOf iw))))
  ∧ (∀ iw : Word, classify iw = .mem →
    (iw.getLsbD 20 = true → iw.getLsbD 22 = false → decodeWord iw = .ok (.ldr (memFieldsOf iw)))
    ∧ (iw.getLsbD 20 = true → iw.getLsbD 22 = true → decodeWord iw = .ok (.ldrb (memFieldsOf iw)))
    ∧ (iw.getLsbD 20 = false → iw.getLsbD 22 = false → decodeWord iw = .ok (.str (memFieldsOf iw)))
    ∧ (iw.getLsbD 20 = false → iw.getLsbD 22 = true → decodeWord iw = .ok (.strb (memFieldsOf iw))))
  ∧ (∀ iw : Word, classify iw = .branch →
    (iw.getLsbD 24 = false → decodeWord iw = .ok (.b (branchFieldsOf iw)))
    ∧ (iw.getLsbD 24 = true → decodeWord iw = .ok (.bl (branchFieldsOf iw))))
  ∧ (∀ iw : Word, classify iw = .bx → decodeWord iw = .ok (.bx (bxFieldsOf iw)))
  ∧ (∀ iw : Word, classify iw = .mul → decodeWord iw = .ok (.mul (mulFieldsOf iw)))

/-- Decoding the four bytes a word is stored as reads that word, in either byte order, and leaves the bytes after it
(R45, R46, R60; byte order is the spec's decision D3 and, for `ENDIAN = Big`, the model's log 11). -/
def Obligations.DecodeOfStoredBytes : Prop :=
  ∀ (e : Endian) (iw : Word) (rest : List Byte),
    decodeBytes e (bytesOfWord e iw ++ rest) = (decodeWord iw).map (fun i => (i, rest))

/-- `Operand2` (R71): the zero-extended 8-bit immediate, or the register; neither rotated nor shifted. -/
def Obligations.OperandTwoForms : Prop :=
  ∀ (iw : Word) (s : State),
    (iw.getLsbD 25 = true → (s.operand2 (operand2Of iw)).toNat = iw.toNat % 256)
    ∧ (iw.getLsbD 25 = false → s.operand2 (operand2Of iw) = s.reg (regOfBits (iw.extractLsb' 0 4)))

/-- `MemOffset` and `EA` (R72, R115; polarity of bit 25 and wrapping are the spec's decisions D15 and D37). -/
def Obligations.EffectiveAddressForms : Prop :=
  ∀ (iw : Word) (s : State),
    (iw.getLsbD 25 = true → s.effectiveAddress (memFieldsOf iw)
      = s.reg (regOfBits (iw.extractLsb' 16 4)) + s.reg (regOfBits (iw.extractLsb' 0 4)))
    ∧ (iw.getLsbD 25 = false → (s.effectiveAddress (memFieldsOf iw)).toNat
      = ((s.reg (regOfBits (iw.extractLsb' 16 4))).toNat + iw.toNat % 4096) % 2 ^ 32)

/-! ### Registers, counters and memory -/

/-- `WriteBack(d, v)` (R156): d holds v; the PC is v when d is 15 and `cur + 4` otherwise; nothing else changes. -/
def Obligations.WriteBackRule : Prop :=
  ∀ (s : State) (d : Reg) (v : Word),
    (s.writeBack d v).reg d = v
    ∧ (d ≠ pcReg → (s.writeBack d v).pc = s.pc + 4#32)
    ∧ (d = pcReg → (s.writeBack d v).pc = v)
    ∧ sameRegsExcept [d, pcReg] s (s.writeBack d v)
    ∧ (s.writeBack d v).flags = s.flags ∧ (s.writeBack d v).counters = s.counters
    ∧ (s.writeBack d v).mem = s.mem ∧ sameControl s (s.writeBack d v)

/-- `Retire` increments its counters exactly once and no other (R157). -/
def Obligations.RetireRule : Prop :=
  ∀ s : State,
    (s.retire .dp).counters = { s.counters with dp := s.counters.dp + 1, total := s.counters.total + 1 }
    ∧ (s.retire .mem).counters = { s.counters with mem := s.counters.mem + 1, total := s.counters.total + 1 }
    ∧ (s.retire .brTaken).counters
        = { s.counters with br := s.counters.br + 1, taken := s.counters.taken + 1, total := s.counters.total + 1 }
    ∧ (s.retire .brNotTaken).counters
        = { s.counters with br := s.counters.br + 1, nottaken := s.counters.nottaken + 1, total := s.counters.total + 1 }

/-- A word written is read back, its bytes lie in the byte order, and nothing else of the state changes (R45, R46, R58; the spec's decision D3, and the
model's log 11 for a store under `ENDIAN = Big`). -/
def Obligations.StoredWordReadsBack : Prop :=
  ∀ (s : State) (a v : Word), Memory.wf s.mem = true →
    (s.writeWord a v).readWord a = v
    ∧ (∀ k : Nat, k < 4 → (s.params.endian = .little →
          ((s.writeWord a v).readByte (a + BitVec.ofNat 32 k)).toNat = v.toNat / 256 ^ k % 256)
        ∧ (s.params.endian = .big →
          ((s.writeWord a v).readByte (a + BitVec.ofNat 32 k)).toNat = v.toNat / 256 ^ (3 - k) % 256))
    ∧ sameMemoryOutside a 4 s (s.writeWord a v)
    ∧ (s.writeWord a v).regs = s.regs ∧ (s.writeWord a v).flags = s.flags ∧ (s.writeWord a v).counters = s.counters
    ∧ sameControl s (s.writeWord a v)

/-- A word read is its four bytes in the byte order (R45; the spec's decision D3). -/
def Obligations.WordReadAssemblesBytes : Prop :=
  ∀ (s : State) (a : Word),
    (s.params.endian = .little → s.readWord a
      = s.readByte (a + 3#32) ++ s.readByte (a + 2#32) ++ s.readByte (a + 1#32) ++ s.readByte a)
    ∧ (s.params.endian = .big → s.readWord a
      = s.readByte a ++ s.readByte (a + 1#32) ++ s.readByte (a + 2#32) ++ s.readByte (a + 3#32))

/-! ### The data-processing unit -/

/-- ADD (R91): the sum modulo 2^32 is written back, one data-processing instruction is counted, and nothing else
changes; it always completes. A result of 0 in r15 halts at the next step; its example word decodes so. -/
def Obligations.AddWritesTheSum : Prop :=
  (∀ (f : DpFields) (s : State), ∃ t, exec (.add f) s = .next t
    ∧ wroteBack f.rd (s.reg f.rn + s.operand2 f.op2) s t ∧ countedAs .dp s t ∧ t.flags = s.flags
    ∧ sameMemory s t ∧ sameControl s t ∧ haltsIfZero t)
  ∧ (∀ iw : Word, classify iw = .dp → iw.extractLsb' 21 4 = 0b0100#4 → decodeWord iw = .ok (.add (dpFieldsOf iw)))
  ∧ (∀ iw : Word, iw.extractLsb' 26 2 = 0b00#2 → iw.extractLsb' 4 4 = 0b1001#4 → classify iw = .mul)
  ∧ decodeWord 0xE2810003#32 = .ok (.add ⟨0xE#4, false, 1, 0, .imm 0#4 3#8⟩)

/-- SUB (R92): the difference modulo 2^32 is written back, one data-processing instruction is counted, and nothing else
changes; it always completes. -/
def Obligations.SubWritesTheDifference : Prop :=
  (∀ (f : DpFields) (s : State), ∃ t, exec (.sub f) s = .next t
    ∧ wroteBack f.rd (s.reg f.rn - s.operand2 f.op2) s t ∧ countedAs .dp s t ∧ t.flags = s.flags
    ∧ sameMemory s t ∧ sameControl s t ∧ haltsIfZero t)
  ∧ (∀ iw : Word, classify iw = .dp → iw.extractLsb' 21 4 = 0b0010#4 → decodeWord iw = .ok (.sub (dpFieldsOf iw)))
  ∧ decodeWord 0xE0432004#32 = .ok (.sub ⟨0xE#4, false, 3, 2, .reg 0#8 4⟩)

/-- MOV (R95): the operand is written back and the Rn field is not read; it always completes. -/
def Obligations.MovWritesTheOperand : Prop :=
  (∀ (f : DpFields) (s : State), ∃ t, exec (.mov f) s = .next t
    ∧ wroteBack f.rd (s.operand2 f.op2) s t ∧ countedAs .dp s t ∧ t.flags = s.flags
    ∧ sameMemory s t ∧ sameControl s t ∧ haltsIfZero t)
  ∧ (∀ (f : DpFields) (s : State) (r : Reg), exec (.mov { f with rn := r }) s = exec (.mov f) s)
  ∧ (∀ iw : Word, classify iw = .dp → iw.extractLsb' 21 4 = 0b1101#4 → decodeWord iw = .ok (.mov (dpFieldsOf iw)))
  ∧ (∀ iw : Word, iw.extractLsb' 26 2 = 0b00#2 → iw.extractLsb' 4 4 = 0b1001#4 → classify iw = .mul)
  ∧ decodeWord 0xE1A0F00E#32 = .ok (.mov ⟨0xE#4, false, 0, 15, .reg 0#8 14⟩)
  ∧ decodeWord 0xE3A000FF#32 = .ok (.mov ⟨0xE#4, false, 0, 0, .imm 0#4 0xFF#8⟩)

/-- MUL (R110 to R113; the destination field is the spec's parameter under decision D12, the width D26): the low 32
bits of the product go to the field `MUL_RD_FIELD` names; it always completes. -/
def Obligations.MulWritesTheLowProduct : Prop :=
  ∀ (f : MulFields) (s : State), ∃ t, exec (.mul f) s = .next t
    ∧ (s.params.mulRdField = .bits19to16 →
        wroteBack f.rn (BitVec.ofNat 32 ((s.reg f.rn).toNat * (s.reg f.rs).toNat)) s t)
    ∧ (s.params.mulRdField = .bits15to12 →
        wroteBack f.rd (BitVec.ofNat 32 ((s.reg f.rn).toNat * (s.reg f.rs).toNat)) s t)
    ∧ countedAs .dp s t ∧ t.flags = s.flags ∧ sameMemory s t ∧ sameControl s t ∧ haltsIfZero t

/-- CMP (R93, R98; the flag codes are the spec's decision D10, the refusal of field 15 its D16): with the destination
field not 15 it completes, writing only FLAGS and the PC; with 15 it faults with no effect. -/
def Obligations.CmpWritesOnlyFlags : Prop :=
  ∀ (f : DpFields) (s : State),
    (f.rd ≠ pcReg → ∃ t, exec (.cmp f) s = .next t
      ∧ t.flags = cmpCode s.params.cmpMode (s.reg f.rn) (s.operand2 f.op2) ++ 0#28
      ∧ wentOn s t ∧ countedAs .dp s t ∧ sameMemory s t ∧ sameControl s t)
    ∧ (f.rd = pcReg →
      faultsWith s ⟨.unpredictablePcField, 6, some s.pc, some (encode (.cmp f)), none⟩ (exec (.cmp f) s))

/-- `CmpCode` (R94, parameter of the spec's decision D9): EQ, LT or GT by the sign of the difference; the two modes agree
when the signed difference fits 32 bits and give opposite signs when it does not. -/
def Obligations.CmpModesDifferOnlyOnOverflow : Prop :=
  ∀ a b : Word,
    (cmpCode .exactSigned a b = if a = b then 0b0000#4 else if a.toInt < b.toInt then 0b1011#4 else 0b1100#4)
    ∧ (-2 ^ 31 ≤ a.toInt - b.toInt ∧ a.toInt - b.toInt ≤ 2 ^ 31 - 1 → cmpCode .wrap32 a b = cmpCode .exactSigned a b)
    ∧ (¬ (-2 ^ 31 ≤ a.toInt - b.toInt ∧ a.toInt - b.toInt ≤ 2 ^ 31 - 1) →
        (cmpCode .wrap32 a b = 0b1011#4 ∧ cmpCode .exactSigned a b = 0b1100#4)
        ∨ (cmpCode .wrap32 a b = 0b1100#4 ∧ cmpCode .exactSigned a b = 0b1011#4))

/-- The twelve no-op opcodes (R99; the refusal of field 15 is the spec's decision D16): with the destination field not
15 each completes, changing only the PC and the counters; with 15 it faults with no effect. -/
def Obligations.NoopOpcodesOnlyAdvance : Prop :=
  ∀ (f : DpFields) (s : State),
    ∀ i ∈ [Instr.dpnopAnd f, .dpnopEor f, .dpnopRsb f, .dpnopAdc f, .dpnopSbc f, .dpnopRsc f, .dpnopTst f, .dpnopTeq f,
      .dpnopCmn f, .dpnopOrr f, .dpnopBic f, .dpnopMvn f],
    (f.rd ≠ pcReg → ∃ t, exec i s = .next t
      ∧ wentOn s t ∧ countedAs .dp s t ∧ t.flags = s.flags ∧ sameMemory s t ∧ sameControl s t)
    ∧ (f.rd = pcReg → faultsWith s ⟨.unpredictablePcField, 6, some s.pc, some (encode i), none⟩ (exec i s))

/-- Only CMP writes FLAGS (R26, the spec's decision D14), whatever instruction runs and however it ends. -/
def Obligations.OnlyCmpWritesFlags : Prop :=
  ∀ (i : Instr) (s t : State), exec i s = .next t → t.flags ≠ s.flags → ∃ f, i = .cmp f

/-- The ignored bits of a word change nothing that executes: of data-processing words the condition field, the S bit, bits
[11:8] beside an immediate and [11:4] beside a register, and for the no-op opcodes every field but the destination; of
MUL the condition field, bits [25:20], [3:0] and, under the default `MUL_RD_FIELD`, [15:12]; of loads and stores the
condition field, P, U, W and bits [11:4] beside a register; of BX the condition field (R62, R63, R64, R68, R83, R99, R101,
R102, R111, R122; the spec's decisions D12, D13 and D14). They show only in the word of a fault record. -/
def Obligations.IgnoredBitsDoNotExecute : Prop :=
  ∀ (s : State) (c : BitVec 4) (x y z : Bool),
    (∀ (f : DpFields) (o : Operand2), sameReadOperand f.op2 o →
      let g : DpFields := { f with ignCond := c, ignS := x, op2 := o }
      exec (.add g) s = exec (.add f) s ∧ exec (.sub g) s = exec (.sub f) s ∧ exec (.mov g) s = exec (.mov f) s
      ∧ withoutWord (exec (.cmp g) s) = withoutWord (exec (.cmp f) s))
    ∧ (∀ (f : DpFields) (r : Reg) (o : Operand2),
      let g : DpFields := { f with ignCond := c, ignS := x, rn := r, op2 := o }
      withoutWord (exec (.dpnopAnd g) s) = withoutWord (exec (.dpnopAnd f) s)
      ∧ withoutWord (exec (.dpnopEor g) s) = withoutWord (exec (.dpnopEor f) s)
      ∧ withoutWord (exec (.dpnopRsb g) s) = withoutWord (exec (.dpnopRsb f) s)
      ∧ withoutWord (exec (.dpnopAdc g) s) = withoutWord (exec (.dpnopAdc f) s)
      ∧ withoutWord (exec (.dpnopSbc g) s) = withoutWord (exec (.dpnopSbc f) s)
      ∧ withoutWord (exec (.dpnopRsc g) s) = withoutWord (exec (.dpnopRsc f) s)
      ∧ withoutWord (exec (.dpnopTst g) s) = withoutWord (exec (.dpnopTst f) s)
      ∧ withoutWord (exec (.dpnopTeq g) s) = withoutWord (exec (.dpnopTeq f) s)
      ∧ withoutWord (exec (.dpnopCmn g) s) = withoutWord (exec (.dpnopCmn f) s)
      ∧ withoutWord (exec (.dpnopOrr g) s) = withoutWord (exec (.dpnopOrr f) s)
      ∧ withoutWord (exec (.dpnopBic g) s) = withoutWord (exec (.dpnopBic f) s)
      ∧ withoutWord (exec (.dpnopMvn g) s) = withoutWord (exec (.dpnopMvn f) s))
    ∧ (∀ (f : MulFields) (b6 : BitVec 6) (b4 : BitVec 4) (r : Reg),
      exec (.mul { f with ignCond := c, ign25to20 := b6, ign3to0 := b4 }) s = exec (.mul f) s
      ∧ (s.params.mulRdField = .bits19to16 →
        exec (.mul { f with ignCond := c, ign25to20 := b6, rd := r, ign3to0 := b4 }) s = exec (.mul f) s))
    ∧ (∀ (f : MemFields) (o : Offset), sameReadOffset f.off o →
      let g : MemFields := { f with ignCond := c, ignP := x, ignU := y, ignW := z, off := o }
      withoutWord (exec (.ldr g) s) = withoutWord (exec (.ldr f) s)
      ∧ withoutWord (exec (.ldrb g) s) = withoutWord (exec (.ldrb f) s)
      ∧ withoutWord (exec (.str g) s) = withoutWord (exec (.str f) s)
      ∧ withoutWord (exec (.strb g) s) = withoutWord (exec (.strb f) s))
    ∧ (∀ f : BxFields, exec (.bx { f with ignCond := c }) s = exec (.bx f) s)

/-! ### Loads and stores -/

/-- LDR (R116, R124, R120): with its address a multiple of 4 and admitted it completes, the word there written back;
otherwise `MisalignedData`, or else `OutOfBounds`, with no effect (the spec's decisions D3 to D6, D25, D30). -/
def Obligations.LdrLoadsTheWord : Prop :=
  ∀ (f : MemFields) (s : State),
    (multipleOf4 (s.effectiveAddress f) → admits s.params .load (s.effectiveAddress f) 4 →
      ∃ t, exec (.ldr f) s = .next t ∧ wroteBack f.rd (s.readWord (s.effectiveAddress f)) s t ∧ countedAs .mem s t
        ∧ t.flags = s.flags ∧ sameMemory s t ∧ sameControl s t ∧ haltsIfZero t)
    ∧ (¬ multipleOf4 (s.effectiveAddress f) →
      faultsWith s ⟨.misalignedData, 3, some s.pc, some (encode (.ldr f)), some (s.effectiveAddress f)⟩
        (exec (.ldr f) s))
    ∧ (multipleOf4 (s.effectiveAddress f) → ¬ admits s.params .load (s.effectiveAddress f) 4 →
      faultsWith s ⟨.outOfBounds, 2, some s.pc, some (encode (.ldr f)), some (s.effectiveAddress f)⟩
        (exec (.ldr f) s))

/-- LDRB (R117): with its address admitted, whatever its alignment, it completes, the byte there zero-extended and
written back; otherwise `OutOfBounds` with no effect (the regions are the spec's decisions D4, D5, D25, D32). -/
def Obligations.LdrbLoadsTheByte : Prop :=
  ∀ (f : MemFields) (s : State),
    (admits s.params .load (s.effectiveAddress f) 1 →
      ∃ t, exec (.ldrb f) s = .next t
        ∧ wroteBack f.rd (BitVec.ofNat 32 (s.readByte (s.effectiveAddress f)).toNat) s t ∧ countedAs .mem s t
        ∧ t.flags = s.flags ∧ sameMemory s t ∧ sameControl s t ∧ haltsIfZero t)
    ∧ (¬ admits s.params .load (s.effectiveAddress f) 1 →
      faultsWith s ⟨.outOfBounds, 2, some s.pc, some (encode (.ldrb f)), some (s.effectiveAddress f)⟩
        (exec (.ldrb f) s))

/-- STR (R118, R124, R120): with its destination field not 15 and its address a multiple of 4 and admitted it completes,
its four bytes at the effective address the source's in the byte order and every other byte unchanged; otherwise the
first fault of R124's order, with no effect (the spec's decisions D3 to D6, D16, D25, D30; the byte order of the store
under `ENDIAN = Big` is the model's log 11, since R46 writes out the little-endian store only). Memory in its canonical
form is an invariant of the model (StepKeepsTheInvariant). -/
def Obligations.StrStoresTheWord : Prop :=
  ∀ (f : MemFields) (s : State),
    (f.rd ≠ pcReg → multipleOf4 (s.effectiveAddress f) →
      admits s.params .store (s.effectiveAddress f) 4 →
      ∃ t, exec (.str f) s = .next t ∧ wentOn s t ∧ countedAs .mem s t ∧ t.flags = s.flags ∧ sameControl s t
        ∧ sameMemoryOutside (s.effectiveAddress f) 4 s t
        ∧ (Memory.wf s.mem = true → t.readWord (s.effectiveAddress f) = s.reg f.rd))
    ∧ (f.rd = pcReg →
      faultsWith s ⟨.unpredictablePcField, 6, some s.pc, some (encode (.str f)), none⟩ (exec (.str f) s))
    ∧ (f.rd ≠ pcReg → ¬ multipleOf4 (s.effectiveAddress f) →
      faultsWith s ⟨.misalignedData, 3, some s.pc, some (encode (.str f)), some (s.effectiveAddress f)⟩
        (exec (.str f) s))
    ∧ (f.rd ≠ pcReg → multipleOf4 (s.effectiveAddress f) →
      ¬ admits s.params .store (s.effectiveAddress f) 4 →
      faultsWith s ⟨.outOfBounds, 2, some s.pc, some (encode (.str f)), some (s.effectiveAddress f)⟩
        (exec (.str f) s))

/-- STRB (R119, R124, R120): with its destination field not 15 and its address admitted it completes, the byte at the
effective address being bits [7:0] of the source and every other byte unchanged; otherwise the first fault of R124's
order, with no effect (the spec's decisions D4, D5, D16, D25, D30). -/
def Obligations.StrbStoresTheByte : Prop :=
  ∀ (f : MemFields) (s : State),
    (f.rd ≠ pcReg → admits s.params .store (s.effectiveAddress f) 1 →
      ∃ t, exec (.strb f) s = .next t ∧ wentOn s t ∧ countedAs .mem s t ∧ t.flags = s.flags ∧ sameControl s t
        ∧ sameMemoryOutside (s.effectiveAddress f) 1 s t
        ∧ (Memory.wf s.mem = true →
            (t.readByte (s.effectiveAddress f)).toNat = (s.reg f.rd).toNat % 256))
    ∧ (f.rd = pcReg →
      faultsWith s ⟨.unpredictablePcField, 6, some s.pc, some (encode (.strb f)), none⟩ (exec (.strb f) s))
    ∧ (f.rd ≠ pcReg → ¬ admits s.params .store (s.effectiveAddress f) 1 →
      faultsWith s ⟨.outOfBounds, 2, some s.pc, some (encode (.strb f)), some (s.effectiveAddress f)⟩
        (exec (.strb f) s))

/-- A byte that any step changes lies in the stack or in a buffer region (R41, R44; the spec's decisions D4, D25). -/
def Obligations.StepsChangeOnlyStackAndBuffers : Prop :=
  ∀ (s t : State) (a : Word), step s = .next t → t.readByte a ≠ s.readByte a →
    ∃ r ∈ (⟨s.params.stackBase, 1024⟩ :: s.params.bufferRegions : List Region),
      r.base.toNat ≤ a.toNat ∧ a.toNat < r.base.toNat + r.len

/-- No step changes a byte of a code region, where the host keeps its regions apart as R41 requires of it (R54, R220; the
spec's decision D25). -/
def Obligations.CodeNeverChanges : Prop :=
  ∀ (s t : State) (r : Region) (a : Word), s.params.wf = true → step s = .next t → r ∈ s.params.codeRegions →
    r.base.toNat ≤ a.toNat → a.toNat < r.base.toNat + r.len → t.readByte a = s.readByte a

/-! ### Branches -/

/-- `CondPass` for the four recognised codes is R131's table, and the twelve others follow `UNKNOWN_COND_POLICY`
(R132, the spec's parameter of decision D8). -/
def Obligations.ConditionTable : Prop :=
  ∀ (p : UnknownCondPolicy) (cond nibble : BitVec 4),
    (recognisedCond cond → (condPass p cond nibble = .pass ↔ condHolds cond nibble)
      ∧ (condPass p cond nibble = .fail ↔ ¬ condHolds cond nibble))
    ∧ (¬ recognisedCond cond → condPass .fault cond nibble = .unknown ∧ condPass .neverTaken cond nibble = .fail)

/-- `BranchOffset` (R73): four times the signed 24-bit field, from −2^25 to 2^25 − 4. -/
def Obligations.BranchOffsetRule : Prop :=
  ∀ imm24 : BitVec 24,
    (branchOffset imm24).toInt = 4 * imm24.toInt
    ∧ -2 ^ 25 ≤ (branchOffset imm24).toInt ∧ (branchOffset imm24).toInt ≤ 2 ^ 25 - 4

/-- Encoding a target offset and decoding it yields the same target PC (R141, which the spec derives from R73). -/
def Obligations.BranchOffsetRoundTrip : Prop :=
  ∀ cur target : Word, (target - cur - 8#32).extractLsb' 0 2 = 0#2 →
    -2 ^ 25 ≤ (target - cur - 8#32).toInt → (target - cur - 8#32).toInt ≤ 2 ^ 25 - 4 →
    cur + 8#32 + branchOffset ((target - cur - 8#32).extractLsb' 2 24) = target

/-- B (R133, R135): taken, it sets the PC to `cur + 8 + BranchOffset` and counts a taken branch; not taken, it advances by
4 and counts one not taken; nothing else changes. One of the two holds unless the condition faults (UnknownConditions). -/
def Obligations.BranchTakenOrNot : Prop :=
  ∀ (f : BranchFields) (s : State),
    (condHolds f.cond s.condNibble → ∃ t, exec (.b f) s = .next t
      ∧ t.pc = s.pc + 8#32 + branchOffset f.imm24 ∧ sameRegsExcept [pcReg] s t ∧ countedAs .brTaken s t
      ∧ t.flags = s.flags ∧ sameMemory s t ∧ sameControl s t ∧ haltsIfZero t)
    ∧ (condFails s f.cond → ∃ t, exec (.b f) s = .next t
      ∧ wentOn s t ∧ countedAs .brNotTaken s t ∧ t.flags = s.flags ∧ sameMemory s t ∧ sameControl s t)

/-- BL (R134, R135): as B, and taken it also sets r14 to `cur + 4`; not taken it leaves r14 unchanged. -/
def Obligations.BranchAndLink : Prop :=
  ∀ (f : BranchFields) (s : State),
    (condHolds f.cond s.condNibble → ∃ t, exec (.bl f) s = .next t
      ∧ t.pc = s.pc + 8#32 + branchOffset f.imm24 ∧ t.reg lrReg = s.pc + 4#32 ∧ sameRegsExcept [lrReg, pcReg] s t
      ∧ countedAs .brTaken s t ∧ t.flags = s.flags ∧ sameMemory s t ∧ sameControl s t ∧ haltsIfZero t)
    ∧ (condFails s f.cond → ∃ t, exec (.bl f) s = .next t
      ∧ wentOn s t ∧ countedAs .brNotTaken s t ∧ t.flags = s.flags ∧ sameMemory s t ∧ sameControl s t)

/-- B and BL with a code outside the four fault `UnknownCondition` under policy `Fault`, with no effect (R132, R191; the
spec's decision D8). -/
def Obligations.UnknownConditions : Prop :=
  ∀ (f : BranchFields) (s : State), ¬ recognisedCond f.cond → s.params.unknownCondPolicy = .fault →
    faultsWith s ⟨.unknownCondition, 5, some s.pc, some (encode (.b f)), none⟩ (exec (.b f) s)
    ∧ faultsWith s ⟨.unknownCondition, 5, some s.pc, some (encode (.bl f)), none⟩ (exec (.bl f) s)

/-- BX (R137, R138): the PC is the register as it is, one taken branch is counted, and nothing else changes, whatever the
condition field; it always completes. -/
def Obligations.BranchExchange : Prop :=
  (∀ (f : BxFields) (s : State), ∃ t, exec (.bx f) s = .next t
    ∧ t.pc = s.reg f.rm ∧ sameRegsExcept [pcReg] s t ∧ countedAs .brTaken s t ∧ t.flags = s.flags ∧ sameMemory s t
    ∧ sameControl s t ∧ haltsIfZero t)
  ∧ decodeWord 0xE12FFF1E#32 = .ok (.bx ⟨0xE#4, 14⟩)

/-- A branch on 0000, 0001, 1011 or 1100 right after a comparison passes exactly when the difference is zero, non-zero,
negative or positive, whatever the unknown-condition policy (R93, R94, R131; S7 of 95_test_vectors.md; the codes are
the spec's decision D10). -/
def Obligations.CompareThenBranch : Prop :=
  ∀ (f : DpFields) (s t : State) (p : UnknownCondPolicy), f.rd ≠ pcReg → exec (.cmp f) s = .next t →
    (condPass p 0b0000#4 t.condNibble = .pass
      ↔ cmpDifference s.params.cmpMode (s.reg f.rn) (s.operand2 f.op2) = 0)
    ∧ (condPass p 0b0001#4 t.condNibble = .pass
      ↔ cmpDifference s.params.cmpMode (s.reg f.rn) (s.operand2 f.op2) ≠ 0)
    ∧ (condPass p 0b1011#4 t.condNibble = .pass
      ↔ cmpDifference s.params.cmpMode (s.reg f.rn) (s.operand2 f.op2) < 0)
    ∧ (condPass p 0b1100#4 t.condNibble = .pass
      ↔ 0 < cmpDifference s.params.cmpMode (s.reg f.rn) (s.operand2 f.op2))

/-- A step that executes a B or BL from an aligned PC leaves an aligned PC (R140, which the spec derives). -/
def Obligations.BranchTargetsAligned : Prop :=
  ∀ (f : BranchFields) (s t : State), multipleOf4 s.pc →
    (exec (.b f) s = .next t ∨ exec (.bl f) s = .next t) → multipleOf4 t.pc

/-! ### The step -/

/-- A STEP RUNS THE DECODED INSTRUCTION (R153 to R155, R163): when the word at the PC is fetched and decodes, the step is
that instruction's execution in the state after the fetch's cache access. -/
def Obligations.StepRunsTheDecodedInstruction : Prop :=
  ∀ (s : State) (c : Cache) (i : Instr), fetches s → s.cache = some c → decodeWord (s.readWord s.pc) = .ok i →
    step s = exec i (afterAccess s c)

/-- A step in RUNNING with PC 0 halts and does nothing else: no fetch, no cache access, no counter (R151, the spec's
decision D19); the host is then given register 0 and reads all other state (R36, R158). -/
def Obligations.HaltAtZero : Prop :=
  ∀ s : State, s.runState = .running → s.pc = 0#32 →
    ∃ t, step s = .next t ∧ t.runState = .halted ∧ t.regs = s.regs ∧ t.flags = s.flags ∧ t.counters = s.counters
      ∧ t.record = s.record ∧ t.mem = s.mem ∧ t.cache = s.cache ∧ t.params = s.params
      ∧ t.report = some (.halted (s.reg 0)) ∧ hostReadsAll t

/-- Before an instruction is fetched (R152, R153, R49, R196; the spec's decisions D7, D18, D30): a spent budget faults
`NonTermination`, an unaligned PC `MisalignedFetch`, a PC outside the code `OutOfBounds`, in that order and with no
effect, the cache included. -/
def Obligations.FaultsBeforeDecode : Prop :=
  ∀ s : State, s.runState = .running → s.pc ≠ 0#32 →
    (s.counters.total = s.params.stepLimit →
      faultsWith s ⟨.nonTermination, 7, some s.pc, none, none⟩ (step s))
    ∧ (s.counters.total ≠ s.params.stepLimit → ¬ multipleOf4 s.pc →
      faultsWith s ⟨.misalignedFetch, 4, some s.pc, none, some s.pc⟩ (step s))
    ∧ (s.counters.total ≠ s.params.stepLimit → multipleOf4 s.pc → ¬ admits s.params .fetch s.pc 4 →
      faultsWith s ⟨.outOfBounds, 2, some s.pc, none, some s.pc⟩ (step s))

/-- A fetched word that spells no instruction faults `DecodeError`, only its cache access having happened (R80, R161,
R154, R195; the spec's decisions D17, D36). -/
def Obligations.UnrecognizedWordFaults : Prop :=
  ∀ (s : State) (c : Cache), fetches s → s.cache = some c → classify (s.readWord s.pc) = .unrecognized →
    faultsWith (afterAccess s c) ⟨.decodeError, 1, some s.pc, some (s.readWord s.pc), none⟩ (step s)

/-- Only RUNNING has a step (R150; the spec's decision D24): in any other run state the model's step stops by name
(log 6). -/
def Obligations.OnlyRunningSteps : Prop :=
  ∀ s : State, s.runState ≠ .running → step s = .fault (.notRunning s.runState)

/-- A step that ends FAULTED changes no register, flag, counter, memory byte or parameter, and its record holds the
PC and one of the first seven causes of R186 under its code; the host is then given `faulted(record)` and reads all other
state (R36, R185, R195, R198; the spec's decisions D2, D24, D38). -/
def Obligations.FaultsArePrecise : Prop :=
  ∀ s t : State, step s = .next t → t.runState = .faulted →
    t.regs = s.regs ∧ t.flags = s.flags ∧ t.counters = s.counters ∧ t.mem = s.mem ∧ t.params = s.params
    ∧ hostReadsAll t
    ∧ ∃ r, t.record = some r ∧ t.report = some (.faulted r) ∧ r.pc = some s.pc
      ∧ (r.cause, r.code) ∈ [(Cause.decodeError, 1), (.outOfBounds, 2), (.misalignedData, 3), (.misalignedFetch, 4),
        (.unknownCondition, 5), (.unpredictablePcField, 6), (.nonTermination, 7)]

/-- A step that stays in RUNNING counts exactly one instruction, a step that halts or faults counts none, and no step
changes the parameters (R28, R29, R151, R195; the spec's decisions D21, D24; the parameters stand in State by the
model's choice, log 1). -/
def Obligations.StepCountsOnceAndKeepsParameters : Prop :=
  ∀ s t : State, step s = .next t → t.params = s.params
    ∧ (t.runState = .running → t.counters.total = s.counters.total + 1 ∧ ∃ k, t.counters = s.counters.count k)
    ∧ (t.runState ≠ .running → t.counters = s.counters)

/-- Every call ends: from any RUNNING state with a cache and a budget not overrun, at most `STEP_LIMIT − CNT.total + 1`
steps lead to HALTED or FAULTED (R152, R160, R193; the spec's decision D18). -/
def Obligations.EveryCallEnds : Prop :=
  ∀ s : State, s.runState = .running → s.cache ≠ none → s.counters.total ≤ s.params.stepLimit →
    ∃ (n : Nat) (t : State), n ≤ s.params.stepLimit - s.counters.total + 1 ∧ ReachesIn n s t
      ∧ (t.runState = .halted ∨ t.runState = .faulted)

/-- A word placed by `withFetchWord` is what the next step decodes and executes, from any state whose memory is canonical
(the model's own placing, log 3). -/
def Obligations.PlacedWordIsExecuted : Prop :=
  ∀ (s : State) (w : Nat) (i : Instr), Memory.wf s.mem = true → decodeWord (tableWord 32 w) = .ok i →
    ∃ t, step (s.withFetchWord 32 w) = exec i t ∧ t.regs = (s.withFetchWord 32 w).regs ∧ t.flags = s.flags
      ∧ t.counters = s.counters

/-! ### The cache observer -/

/-- Index and tag of a key (R172, R173, R174; tag formula of the spec's decision D23): the index is the key's word number
modulo N, the full tag the rest, and the reference tag the rest under the mask `(2 + k) − 1`. -/
def Obligations.IndexAndTag : Prop :=
  ∀ (n : Nat) (key : Word), validCacheSize n = true →
    slotIndex n key = key.toNat / 4 % n
    ∧ (cacheTag .full n key).toNat = key.toNat / (4 * n)
    ∧ (cacheTag .reference n key).toNat = key.toNat / (4 * n) &&& (cacheLog2 n + 1)

/-- `log2(N)` is exact for the admitted sizes, which are the powers of two from 8 to 1024 (R170, R173; R181 is the spec's
decision D35). -/
def Obligations.CacheSizes : Prop :=
  ∀ n : Nat, (validCacheSize n = true ↔ ∃ k, 3 ≤ k ∧ k ≤ 10 ∧ n = 2 ^ k)
    ∧ ∀ k, 3 ≤ k → k ≤ 10 → n = 2 ^ k → cacheLog2 n = k

/-- `CacheAccess` (R175, R176, R177): a cold miss installs, a hit changes no slot, a conflict miss overwrites the tag;
each is one request and one hit or one miss, and no other slot changes. -/
def Obligations.CacheAccessRule : Prop :=
  ∀ (mode : TagMode) (c : Cache) (key : Word), validCacheSize c.size = true → c.slots.length = c.size →
    (c.access mode key).requests = c.requests + 1 ∧ (c.access mode key).size = c.size
    ∧ ((c.slot (slotIndex c.size key)).valid = false →
        (c.access mode key).misses = c.misses + 1 ∧ (c.access mode key).hits = c.hits)
    ∧ ((c.slot (slotIndex c.size key)).valid = true →
        (c.slot (slotIndex c.size key)).tag = cacheTag mode c.size key →
        (c.access mode key).hits = c.hits + 1 ∧ (c.access mode key).misses = c.misses
          ∧ (c.access mode key).slots = c.slots)
    ∧ ((c.slot (slotIndex c.size key)).valid = true →
        (c.slot (slotIndex c.size key)).tag ≠ cacheTag mode c.size key →
        (c.access mode key).misses = c.misses + 1 ∧ (c.access mode key).hits = c.hits)
    ∧ (c.access mode key).slot (slotIndex c.size key) = ⟨true, cacheTag mode c.size key⟩
    ∧ ∀ j, j ≠ slotIndex c.size key → (c.access mode key).slot j = c.slot j

/-- "hits + misses == requests" after every access of a well-formed cache, which stays well formed (R170, R178). -/
def Obligations.AccessKeepsTheCacheWellFormed : Prop :=
  ∀ (mode : TagMode) (c : Cache) (key : Word), c.ok → (c.access mode key).ok

/-- A slot once written stays valid for the remainder of the run: through any step and any transaction of the host
(R182). -/
def Obligations.SlotsStayValid : Prop :=
  ∀ (s t : State) (c : Cache) (j : Nat), s.cache = some c → (c.slot j).valid = true →
    (step s = .next t ∨ (∃ n, s.construct n = .done t) ∨ (∃ entry args, s.start entry args = .done t)
      ∨ (∃ p, s.configure p = .done t) ∨ (∃ a b, s.supplyByte a b = .done t)) →
    ∃ d, t.cache = some d ∧ (d.slot j).valid = true

/-- The cache never affects architectural state (R180, which the spec derives): two states that agree but for the
cache's contents step alike, and agree but for the cache afterwards. -/
def Obligations.CacheIsOnlyAnObserver : Prop :=
  ∀ s s' : State, agreeButCache s s' →
    (∀ t, step s = .next t → ∃ t', step s' = .next t' ∧ agreeButCache t t')
    ∧ (∀ r, step s = .fault r → step s' = .fault r)

/-! ### Reset and the host's transactions -/

/-- `reset_for_call` (R211) and the state after it (R212, R214): every field it names has the value it names, the stack
reads 0, every other byte, the cache and the parameters are untouched. -/
def Obligations.ResetForCallRule : Prop :=
  ∀ (s : State) (entry a0 a1 a2 a3 : Word), let t := s.resetForCall entry a0 a1 a2 a3
    t.reg 0 = a0 ∧ t.reg 1 = a1 ∧ t.reg 2 = a2 ∧ t.reg 3 = a3
    ∧ (∀ r : Reg, 4 ≤ r → r ≤ 12 → t.reg r = 0#32)
    ∧ t.reg spReg = s.params.stackBase + 1024#32 ∧ t.reg lrReg = 0#32 ∧ t.pc = entry
    ∧ t.flags = 0#32 ∧ t.counters = ⟨0, 0, 0, 0, 0, 0⟩ ∧ t.record = none ∧ t.runState = .running
    ∧ (∀ a : Word, s.params.stackBase.toNat ≤ a.toNat → a.toNat < s.params.stackBase.toNat + 1024 →
        t.readByte a = 0#8)
    ∧ (∀ a : Word, a.toNat < s.params.stackBase.toNat ∨ s.params.stackBase.toNat + 1024 ≤ a.toNat →
        t.readByte a = s.readByte a)
    ∧ t.cache = s.cache ∧ t.params = s.params

/-- `start` outside RUNNING, with a cache and up to four arguments, is `reset_for_call` with 0 for each argument not
supplied (R150, R199, R213; the spec's decisions D20, D24, D28); in RUNNING it is no transition (rejected by name,
log 12). -/
def Obligations.StartBeginsACall : Prop :=
  ∀ (s : State) (entry a b c d : Word),
    (s.runState ≠ .running → s.cache ≠ none →
      s.start entry [] = .done (s.resetForCall entry 0#32 0#32 0#32 0#32)
      ∧ s.start entry [a] = .done (s.resetForCall entry a 0#32 0#32 0#32)
      ∧ s.start entry [a, b] = .done (s.resetForCall entry a b 0#32 0#32)
      ∧ s.start entry [a, b, c] = .done (s.resetForCall entry a b c 0#32)
      ∧ s.start entry [a, b, c, d] = .done (s.resetForCall entry a b c d))
    ∧ (s.runState = .running → ∀ args, s.start entry args = .rejected .callRunning)
    ∧ (s.cache = none → ∀ args t, s.start entry args ≠ .done t)

/-- `construct(N)` builds an empty cache for an admitted N and answers `ConfigError(N)`, code 8, for any other
(R35, R179, R181, R194; the spec's decision D35). -/
def Obligations.ConstructBuildsOrRefuses : Prop :=
  ∀ (s : State) (n : Nat), s.cache = none →
    ((∃ k, 3 ≤ k ∧ k ≤ 10 ∧ n = 2 ^ k) → ∃ c, s.construct n = .done { s with cache := some c }
      ∧ c.size = n ∧ c.slots.length = n ∧ (∀ x ∈ c.slots, x.valid = false)
      ∧ c.hits = 0 ∧ c.misses = 0 ∧ c.requests = 0)
    ∧ ((¬ ∃ k, 3 ≤ k ∧ k ≤ 10 ∧ n = 2 ^ k) →
      s.construct n = .configError ⟨.configError, 8, none, none, none⟩ n)

/-- The model's reset state is what `construct` and `start` make of any block at power-on whatever its registers, FLAGS,
counters, record and stack bytes hold (R210, R211), given the parameters, cache size 8 and entry 0x8000 that the model
chose and code and buffer bytes all as unlisted (DESIGN CHOICE, logs 2 and 4): memory may list stack bytes only. -/
def Obligations.ResetFromAnyPowerOn : Prop :=
  ∀ s : State, s.isPowerOn = true → s.params = Params.atReset →
    (∀ c ∈ s.mem, s.params.stackBase.toNat ≤ c.1 ∧ c.1 < s.params.stackBase.toNat + 1024) →
    ∃ t, s.construct 8 = .done t ∧ t.start 0x00008000#32 [] = .done State.reset

/-- An entry of 0 halts at the first step with no instruction fetched and a0 as the result (R215, which the spec derives;
its decision D19). -/
def Obligations.EntryZeroHalts : Prop :=
  ∀ (s t : State) (a0 : Word), s.start 0#32 [a0] = .done t →
    ∃ u, step t = .next u ∧ u.report = some (.halted a0) ∧ u.counters = ⟨0, 0, 0, 0, 0, 0⟩ ∧ u.cache = s.cache

/-! ### The invariant of a run -/

/-- The invariant of a run (canonical memory, R25's flag codes, R30's sums, the budget of R152, R33's record, R178's
cache) is kept by every step, from every state that has it, reached or not. -/
def Obligations.StepKeepsTheInvariant : Prop :=
  ∀ s t : State, s.Inv → step s = .next t → t.Inv

/-- The reset state has the invariant (its parameters, cache size and entry are the model's choice, log 2). -/
def Obligations.ResetHasTheInvariant : Prop := State.reset.Inv

/-- A `start` gives the invariant's call part to any state whose memory and cache have theirs (R211, R212). -/
def Obligations.StartEstablishesTheInvariant : Prop :=
  ∀ (s t : State) (entry : Word) (args : List Word), Memory.wf s.mem = true → (∀ c, s.cache = some c → c.ok) →
    s.start entry args = .done t → t.Inv
end

