-- ==== Sys2Proof/Laws/Cache.lean ====
section
/-! SUPPORT. The cache observer: what one access can do, and where its slot index lies. -/

namespace Sys2Proof.Machine

/-- An access is a hit, when the slot is valid with the key's tag, or else a miss (R175). -/
theorem Cache.access_cases (mode : TagMode) (c : Cache) (key : Word) :
    ((c.slot (slotIndex c.size key)).valid = true ∧ (c.slot (slotIndex c.size key)).tag = cacheTag mode c.size key
        ∧ c.access mode key = c.recordHit)
      ∨ (¬ ((c.slot (slotIndex c.size key)).valid = true
            ∧ (c.slot (slotIndex c.size key)).tag = cacheTag mode c.size key)
        ∧ c.access mode key = c.recordMiss (slotIndex c.size key) (cacheTag mode c.size key)) := by
  unfold Cache.access
  by_cases hv : (c.slot (slotIndex c.size key)).valid = true
  · by_cases ht : (c.slot (slotIndex c.size key)).tag = cacheTag mode c.size key
    · exact .inl ⟨hv, ht, by simp [hv, ht]⟩
    · exact .inr ⟨by simp [ht], by simp [ht]⟩
  · exact .inr ⟨by simp [hv], by simp [hv]⟩

@[simp] theorem Cache.recordHit_size (c : Cache) : c.recordHit.size = c.size := rfl
@[simp] theorem Cache.recordHit_slots (c : Cache) : c.recordHit.slots = c.slots := rfl
@[simp] theorem Cache.recordHit_hits (c : Cache) : c.recordHit.hits = c.hits + 1 := rfl
@[simp] theorem Cache.recordHit_misses (c : Cache) : c.recordHit.misses = c.misses := rfl
@[simp] theorem Cache.recordHit_requests (c : Cache) : c.recordHit.requests = c.requests + 1 := rfl
@[simp] theorem Cache.recordMiss_size (c : Cache) (i : Nat) (t : Word) : (c.recordMiss i t).size = c.size := rfl
@[simp] theorem Cache.recordMiss_slots (c : Cache) (i : Nat) (t : Word) :
    (c.recordMiss i t).slots = c.slots.set i { valid := true, tag := t } := rfl
@[simp] theorem Cache.recordMiss_hits (c : Cache) (i : Nat) (t : Word) : (c.recordMiss i t).hits = c.hits := rfl
@[simp] theorem Cache.recordMiss_misses (c : Cache) (i : Nat) (t : Word) : (c.recordMiss i t).misses = c.misses + 1 := rfl
@[simp] theorem Cache.recordMiss_requests (c : Cache) (i : Nat) (t : Word) :
    (c.recordMiss i t).requests = c.requests + 1 := rfl

/-- The admitted sizes, one by one, with their logarithms (R173). -/
theorem validCacheSize_iff (n : Nat) :
    validCacheSize n = true ↔ n = 8 ∨ n = 16 ∨ n = 32 ∨ n = 64 ∨ n = 128 ∨ n = 256 ∨ n = 512 ∨ n = 1024 := by
  constructor
  · intro h
    have hb : n ≤ 1024 := by simp [validCacheSize] at h; omega
    have key : ∀ m : Fin 1025, validCacheSize m.val = true →
        m.val = 8 ∨ m.val = 16 ∨ m.val = 32 ∨ m.val = 64 ∨ m.val = 128 ∨ m.val = 256 ∨ m.val = 512 ∨ m.val = 1024 := by
      decide +kernel
    exact key ⟨n, by omega⟩ h
  · rintro (rfl | rfl | rfl | rfl | rfl | rfl | rfl | rfl) <;> decide

/-- An admitted size is two to its logarithm (R173). -/
theorem two_pow_cacheLog2 {n : Nat} (h : validCacheSize n = true) : 2 ^ cacheLog2 n = n := by
  rcases (validCacheSize_iff n).mp h with rfl | rfl | rfl | rfl | rfl | rfl | rfl | rfl <;> decide

/-- The index names a slot of the cache. -/
theorem slotIndex_lt {n : Nat} (h : validCacheSize n = true) (key : Word) : slotIndex n key < n := by
  have hn : n - 1 < n ∧ n < 2 ^ 32 := by
    rcases (validCacheSize_iff n).mp h with rfl | rfl | rfl | rfl | rfl | rfl | rfl | rfl <;> decide
  unfold slotIndex
  rw [BitVec.toNat_and, BitVec.toNat_ofNat, Nat.mod_eq_of_lt (by omega)]
  exact lt_of_le_of_lt Nat.and_le_right hn.1

end Sys2Proof.Machine
end

