-- ==== Sys2Proof/Laws/Encoding.lean ====
section
/-! SUPPORT. Bit fields of the encoder's words: each field stands where its format's table puts it. -/

namespace Sys2Proof

/-- Reading bits at or above a field's lowest bit reads the field. -/
theorem extract_place_inside {w : Nat} {lo s l : Nat} (x : BitVec w) (h₁ : lo ≤ s) (h₂ : s + l ≤ 32) :
    (place lo x).extractLsb' s l = x.extractLsb' (s - lo) l := by
  apply BitVec.eq_of_getLsbD_eq
  intro i hi
  simp only [place, BitVec.getLsbD_extractLsb', BitVec.getLsbD_shiftLeft, BitVec.getLsbD_setWidth, hi, decide_true,
    Bool.true_and]
  rw [show s + i - lo = s - lo + i by omega]
  simp [show s + i < 32 by omega, show s - lo + i < 32 by omega, show lo ≤ s + i by omega]

/-- Reading bits below a field's lowest bit reads nothing of it. -/
theorem extract_place_below {w : Nat} {lo s l : Nat} (x : BitVec w) (h : s + l ≤ lo) :
    (place lo x).extractLsb' s l = 0 := by
  apply BitVec.eq_of_getLsbD_eq
  intro i hi
  simp [place, hi]; omega

/-- Reading bits above a value's width reads zero. -/
theorem extract_beyond {w : Nat} {s l : Nat} (x : BitVec w) (h : w ≤ s) : x.extractLsb' s l = 0 := by
  apply BitVec.eq_of_getLsbD_eq
  intro i hi
  simp only [BitVec.getLsbD_extractLsb', hi, decide_true, Bool.true_and]
  exact BitVec.getLsbD_of_ge x _ (by omega) |>.trans (by simp)

/-- A field of a field is a field of the word. -/
theorem extract_extract {w : Nat} (x : BitVec w) {s l s' l' : Nat} (h : s' + l' ≤ l) :
    (x.extractLsb' s l).extractLsb' s' l' = x.extractLsb' (s + s') l' := by
  apply BitVec.eq_of_getLsbD_eq
  intro i hi
  simp only [BitVec.getLsbD_extractLsb', hi, decide_true, Bool.true_and, show s' + i < l by omega]
  rw [Nat.add_assoc]

/-- A one-bit field is the bit itself. -/
theorem bitField_eq (iw : Word) (n : Nat) : BitVec.ofBool (bitField iw n) = iw.extractLsb' n 1 := by
  apply BitVec.eq_of_getLsbD_eq
  intro i hi
  obtain rfl : i = 0 := by omega
  simp [bitField]

theorem bitField_of_extract {iw : Word} {n : Nat} {b : Bool} (h : iw.extractLsb' n 1 = BitVec.ofBool b) :
    bitField iw n = b := by
  rw [← bitField_eq] at h
  revert h; cases bitField iw n <;> cases b <;> decide

@[simp] theorem regOfBits_bitsOfReg (r : Reg) : regOfBits (bitsOfReg r) = r := rfl
@[simp] theorem bitsOfReg_regOfBits (b : BitVec 4) : bitsOfReg (regOfBits b) = b := rfl

/-- The BX pattern has op class 00 and bits [7:4] = 0001. -/
theorem bx_pattern_bits {iw : Word} (h : iw.extractLsb' 4 24 = 0x12FFF1#24) :
    iw.extractLsb' 26 2 = 0b00#2 ∧ iw.extractLsb' 4 4 = 0b0001#4 := by
  have h1 := congrArg (BitVec.extractLsb' 22 2) h
  have h2 := congrArg (BitVec.extractLsb' 0 4) h
  rw [extract_extract _ (by omega)] at h1 h2
  exact ⟨h1, h2⟩

/-- A memory word is classified MEM whatever its other bits (R75, R76). -/
theorem classify_of_mem {iw : Word} (h : iw.extractLsb' 26 2 = 0b01#2) : classify iw = .mem := by
  have hbx : iw.extractLsb' 4 24 ≠ 0x12FFF1#24 := fun hp => by
    rw [(bx_pattern_bits hp).1] at h; exact absurd h (by decide)
  simp [classify, hbx, h]

/-- A word of op class 00 with bits [7:4] = 1001 is classified MUL (R75, R76). -/
theorem classify_of_mul {iw : Word} (h : iw.extractLsb' 26 2 = 0b00#2) (hs : iw.extractLsb' 4 4 = 0b1001#4) :
    classify iw = .mul := by
  have hbx : iw.extractLsb' 4 24 ≠ 0x12FFF1#24 := fun hp => by
    rw [(bx_pattern_bits hp).2] at hs; exact absurd hs (by decide)
  simp [classify, hbx, h, hs]

/-- A word of op class 00 that is neither the BX pattern nor a MUL is classified DP (R75, R76). -/
theorem classify_of_dp {iw : Word} (h : iw.extractLsb' 26 2 = 0b00#2) (hs : iw.extractLsb' 4 4 ≠ 0b1001#4)
    (hbx : iw.extractLsb' 4 24 ≠ 0x12FFF1#24) : classify iw = .dp := by
  simp [classify, hbx, h, hs]

/-- A word with bits [27:25] = 101 is classified BRANCH (R75, R76). -/
theorem classify_of_branch {iw : Word} (h : iw.extractLsb' 25 3 = 0b101#3) : classify iw = .branch := by
  have h2 := congrArg (BitVec.extractLsb' 1 2) h
  rw [extract_extract _ (by omega)] at h2
  have hc : iw.extractLsb' 26 2 = 0b10#2 := h2
  have hbx : iw.extractLsb' 4 24 ≠ 0x12FFF1#24 := fun hp => by
    rw [(bx_pattern_bits hp).1] at hc; exact absurd hc (by decide)
  simp [classify, hbx, hc, h]

/-! ### The fields of each format (R62 to R66) -/

theorem encodeDp_bits_28_4 (opcode : BitVec 4) (f : DpFields) : (encodeDp opcode f).extractLsb' 28 4 = f.ignCond := by
  simp (disch := omega) [encodeDp, BitVec.extractLsb'_or, extract_place_inside, extract_beyond]

theorem encodeDp_bits_26_2 (opcode : BitVec 4) (f : DpFields) : (encodeDp opcode f).extractLsb' 26 2 = 0b00#2 := by
  simp (disch := omega) [encodeDp, BitVec.extractLsb'_or, extract_place_inside, extract_place_below, extract_beyond]

theorem encodeDp_bits_25_1 (opcode : BitVec 4) (f : DpFields) : (encodeDp opcode f).extractLsb' 25 1 = BitVec.ofBool f.op2.iBit := by
  simp (disch := omega) [encodeDp, BitVec.extractLsb'_or, extract_place_inside, extract_place_below, extract_beyond]

theorem encodeDp_bits_21_4 (opcode : BitVec 4) (f : DpFields) : (encodeDp opcode f).extractLsb' 21 4 = opcode := by
  simp (disch := omega) [encodeDp, BitVec.extractLsb'_or, extract_place_inside, extract_place_below, extract_beyond]

theorem encodeDp_bits_20_1 (opcode : BitVec 4) (f : DpFields) : (encodeDp opcode f).extractLsb' 20 1 = BitVec.ofBool f.ignS := by
  simp (disch := omega) [encodeDp, BitVec.extractLsb'_or, extract_place_inside, extract_place_below, extract_beyond]

theorem encodeDp_bits_16_4 (opcode : BitVec 4) (f : DpFields) : (encodeDp opcode f).extractLsb' 16 4 = bitsOfReg f.rn := by
  simp (disch := omega) [encodeDp, BitVec.extractLsb'_or, extract_place_inside, extract_place_below, extract_beyond]

theorem encodeDp_bits_12_4 (opcode : BitVec 4) (f : DpFields) : (encodeDp opcode f).extractLsb' 12 4 = bitsOfReg f.rd := by
  simp (disch := omega) [encodeDp, BitVec.extractLsb'_or, extract_place_inside, extract_place_below, extract_beyond]

theorem encodeDp_bits_0_12 (opcode : BitVec 4) (f : DpFields) : (encodeDp opcode f).extractLsb' 0 12 = f.op2.bits := by
  simp (disch := omega) [encodeDp, BitVec.extractLsb'_or, extract_place_inside, extract_place_below]

theorem encodeMul_bits_28_4 (f : MulFields) : (encodeMul f).extractLsb' 28 4 = f.ignCond := by
  simp (disch := omega) [encodeMul, BitVec.extractLsb'_or, extract_place_inside, extract_beyond]

theorem encodeMul_bits_26_2 (f : MulFields) : (encodeMul f).extractLsb' 26 2 = 0b00#2 := by
  simp (disch := omega) [encodeMul, BitVec.extractLsb'_or, extract_place_inside, extract_place_below, extract_beyond]

theorem encodeMul_bits_20_6 (f : MulFields) : (encodeMul f).extractLsb' 20 6 = f.ign25to20 := by
  simp (disch := omega) [encodeMul, BitVec.extractLsb'_or, extract_place_inside, extract_place_below, extract_beyond]

theorem encodeMul_bits_16_4 (f : MulFields) : (encodeMul f).extractLsb' 16 4 = bitsOfReg f.rn := by
  simp (disch := omega) [encodeMul, BitVec.extractLsb'_or, extract_place_inside, extract_place_below, extract_beyond]

theorem encodeMul_bits_12_4 (f : MulFields) : (encodeMul f).extractLsb' 12 4 = bitsOfReg f.rd := by
  simp (disch := omega) [encodeMul, BitVec.extractLsb'_or, extract_place_inside, extract_place_below, extract_beyond]

theorem encodeMul_bits_8_4 (f : MulFields) : (encodeMul f).extractLsb' 8 4 = bitsOfReg f.rs := by
  simp (disch := omega) [encodeMul, BitVec.extractLsb'_or, extract_place_inside, extract_place_below, extract_beyond]

theorem encodeMul_bits_4_4 (f : MulFields) : (encodeMul f).extractLsb' 4 4 = 0b1001#4 := by
  simp (disch := omega) [encodeMul, BitVec.extractLsb'_or, extract_place_inside, extract_place_below, extract_beyond]

theorem encodeMul_bits_0_4 (f : MulFields) : (encodeMul f).extractLsb' 0 4 = f.ign3to0 := by
  simp (disch := omega) [encodeMul, BitVec.extractLsb'_or, extract_place_inside, extract_place_below]

theorem encodeMem_bits_28_4 (l b : Bool) (f : MemFields) : (encodeMem l b f).extractLsb' 28 4 = f.ignCond := by
  simp (disch := omega) [encodeMem, BitVec.extractLsb'_or, extract_place_inside, extract_beyond]

theorem encodeMem_bits_26_2 (l b : Bool) (f : MemFields) : (encodeMem l b f).extractLsb' 26 2 = 0b01#2 := by
  simp (disch := omega) [encodeMem, BitVec.extractLsb'_or, extract_place_inside, extract_place_below, extract_beyond]

theorem encodeMem_bits_25_1 (l b : Bool) (f : MemFields) : (encodeMem l b f).extractLsb' 25 1 = BitVec.ofBool f.off.iBit := by
  simp (disch := omega) [encodeMem, BitVec.extractLsb'_or, extract_place_inside, extract_place_below, extract_beyond]

theorem encodeMem_bits_24_1 (l b : Bool) (f : MemFields) : (encodeMem l b f).extractLsb' 24 1 = BitVec.ofBool f.ignP := by
  simp (disch := omega) [encodeMem, BitVec.extractLsb'_or, extract_place_inside, extract_place_below, extract_beyond]

theorem encodeMem_bits_23_1 (l b : Bool) (f : MemFields) : (encodeMem l b f).extractLsb' 23 1 = BitVec.ofBool f.ignU := by
  simp (disch := omega) [encodeMem, BitVec.extractLsb'_or, extract_place_inside, extract_place_below, extract_beyond]

theorem encodeMem_bits_22_1 (l b : Bool) (f : MemFields) : (encodeMem l b f).extractLsb' 22 1 = BitVec.ofBool b := by
  simp (disch := omega) [encodeMem, BitVec.extractLsb'_or, extract_place_inside, extract_place_below, extract_beyond]

theorem encodeMem_bits_21_1 (l b : Bool) (f : MemFields) : (encodeMem l b f).extractLsb' 21 1 = BitVec.ofBool f.ignW := by
  simp (disch := omega) [encodeMem, BitVec.extractLsb'_or, extract_place_inside, extract_place_below, extract_beyond]

theorem encodeMem_bits_20_1 (l b : Bool) (f : MemFields) : (encodeMem l b f).extractLsb' 20 1 = BitVec.ofBool l := by
  simp (disch := omega) [encodeMem, BitVec.extractLsb'_or, extract_place_inside, extract_place_below, extract_beyond]

theorem encodeMem_bits_16_4 (l b : Bool) (f : MemFields) : (encodeMem l b f).extractLsb' 16 4 = bitsOfReg f.rn := by
  simp (disch := omega) [encodeMem, BitVec.extractLsb'_or, extract_place_inside, extract_place_below, extract_beyond]

theorem encodeMem_bits_12_4 (l b : Bool) (f : MemFields) : (encodeMem l b f).extractLsb' 12 4 = bitsOfReg f.rd := by
  simp (disch := omega) [encodeMem, BitVec.extractLsb'_or, extract_place_inside, extract_place_below, extract_beyond]

theorem encodeMem_bits_0_12 (l b : Bool) (f : MemFields) : (encodeMem l b f).extractLsb' 0 12 = f.off.bits := by
  simp (disch := omega) [encodeMem, BitVec.extractLsb'_or, extract_place_inside, extract_place_below]

theorem encodeBranch_bits_28_4 (link : Bool) (f : BranchFields) : (encodeBranch link f).extractLsb' 28 4 = f.cond := by
  simp (disch := omega) [encodeBranch, BitVec.extractLsb'_or, extract_place_inside, extract_beyond]

theorem encodeBranch_bits_25_3 (link : Bool) (f : BranchFields) : (encodeBranch link f).extractLsb' 25 3 = 0b101#3 := by
  simp (disch := omega) [encodeBranch, BitVec.extractLsb'_or, extract_place_inside, extract_place_below, extract_beyond]

theorem encodeBranch_bits_24_1 (link : Bool) (f : BranchFields) : (encodeBranch link f).extractLsb' 24 1 = BitVec.ofBool link := by
  simp (disch := omega) [encodeBranch, BitVec.extractLsb'_or, extract_place_inside, extract_place_below, extract_beyond]

theorem encodeBranch_bits_0_24 (link : Bool) (f : BranchFields) : (encodeBranch link f).extractLsb' 0 24 = f.imm24 := by
  simp (disch := omega) [encodeBranch, BitVec.extractLsb'_or, extract_place_inside, extract_place_below]

theorem encodeBx_bits_28_4 (f : BxFields) : (encodeBx f).extractLsb' 28 4 = f.ignCond := by
  simp (disch := omega) [encodeBx, BitVec.extractLsb'_or, extract_place_inside, extract_beyond]

theorem encodeBx_bits_4_24 (f : BxFields) : (encodeBx f).extractLsb' 4 24 = 0x12FFF1#24 := by
  simp (disch := omega) [encodeBx, BitVec.extractLsb'_or, extract_place_inside, extract_place_below, extract_beyond]

theorem encodeBx_bits_0_4 (f : BxFields) : (encodeBx f).extractLsb' 0 4 = bitsOfReg f.rm := by
  simp (disch := omega) [encodeBx, BitVec.extractLsb'_or, extract_place_inside, extract_place_below]

/-! ### The classes of the encoder's words -/

theorem op2_bits_notMul {o : Operand2} (h : o.notMul = true) : o.bits.extractLsb' 4 4 ≠ 0b1001#4 := by
  cases o with
  | imm ign imm8 =>
    simp only [Operand2.notMul, Operand2.bits, bne_iff_ne] at h ⊢
    rw [show (ign ++ imm8).extractLsb' 4 4 = imm8.extractLsb' 4 4 from
      BitVec.extractLsb'_append_eq_of_add_le (by omega)]
    exact h
  | reg ign rm =>
    simp only [Operand2.notMul, Operand2.bits, bne_iff_ne] at h ⊢
    rw [show (ign ++ bitsOfReg rm).extractLsb' 4 4 = ign.extractLsb' 0 4 from
      BitVec.extractLsb'_append_eq_of_le (by omega)]
    exact h

/-- The BX pattern has opcode 1001. -/
theorem encodeDp_not_bx {opcode : BitVec 4} (f : DpFields) (h : opcode ≠ 0b1001#4) :
    (encodeDp opcode f).extractLsb' 4 24 ≠ 0x12FFF1#24 := fun hp => by
  have h1 := congrArg (BitVec.extractLsb' 17 4) hp
  rw [extract_extract _ (by omega), encodeDp_bits_21_4] at h1
  exact h h1

/-- A data-processing word spells the BX pattern only when its fields do. -/
theorem isBxPattern_of_bits {opcode : BitVec 4} {f : DpFields}
    (hp : (encodeDp opcode f).extractLsb' 4 24 = 0x12FFF1#24) : f.isBxPattern = true := by
  have hi := congrArg (BitVec.extractLsb' 21 1) hp
  have hs := congrArg (BitVec.extractLsb' 16 1) hp
  have hn := congrArg (BitVec.extractLsb' 12 4) hp
  have hd := congrArg (BitVec.extractLsb' 8 4) hp
  have hl := congrArg (BitVec.extractLsb' 0 8) hp
  rw [extract_extract _ (by omega)] at hi hs hn hd hl
  rw [encodeDp_bits_25_1] at hi
  rw [encodeDp_bits_20_1] at hs
  rw [encodeDp_bits_16_4] at hn
  rw [encodeDp_bits_12_4] at hd
  have hl' : f.op2.bits.extractLsb' 4 8 = 0b11110001#8 := by
    rw [← encodeDp_bits_0_12 opcode f, extract_extract _ (by omega)]; exact hl
  have hrn : f.rn = 15 := congrArg regOfBits hn
  have hrd : f.rd = 15 := congrArg regOfBits hd
  have hsf : f.ignS = false := by 
    cases h : f.ignS with
    | false => rfl
    | true => rw [h] at hs; exact absurd hs (by decide)
  unfold DpFields.isBxPattern
  cases hop : f.op2 with
  | imm _ _ => rw [hop] at hi; exact absurd (show (1#1 : BitVec 1) = 0#1 from hi) (by decide)
  | reg ign rm =>
    rw [hop] at hl'
    have : ign = 0b11110001#8 := by
      rw [← hl']
      simp only [Operand2.bits]
      rw [show (ign ++ bitsOfReg rm).extractLsb' 4 8 = ign.extractLsb' 0 8 from
        BitVec.extractLsb'_append_eq_of_le (by omega)]
      simp
    simp [this, hrn, hrd, hsf]

theorem classify_encodeDp {opcode : BitVec 4} {f : DpFields} (h : f.op2.notMul = true)
    (hbx : opcode ≠ 0b1001#4 ∨ f.isBxPattern = false) : classify (encodeDp opcode f) = .dp := by
  refine classify_of_dp (encodeDp_bits_26_2 opcode f) ?_ ?_
  · have := op2_bits_notMul h
    rwa [← encodeDp_bits_0_12 opcode f, extract_extract _ (by omega)] at this
  · rcases hbx with ho | hb
    · exact encodeDp_not_bx f ho
    · intro hp; rw [isBxPattern_of_bits hp] at hb; exact absurd hb (by decide)

theorem classify_encodeMul (f : MulFields) : classify (encodeMul f) = .mul :=
  classify_of_mul (encodeMul_bits_26_2 f) (encodeMul_bits_4_4 f)

theorem classify_encodeMem (l b : Bool) (f : MemFields) : classify (encodeMem l b f) = .mem :=
  classify_of_mem (encodeMem_bits_26_2 l b f)

theorem classify_encodeBranch (link : Bool) (f : BranchFields) : classify (encodeBranch link f) = .branch :=
  classify_of_branch (encodeBranch_bits_25_3 link f)

theorem classify_encodeBx (f : BxFields) : classify (encodeBx f) = .bx := by
  simp [classify, encodeBx_bits_4_24]

end Sys2Proof
end

