-- ==== Sys2Proof/Laws/Flags.lean ====
section
/-! SUPPORT. The flags word and the branch condition. -/

namespace Sys2Proof.Machine

/-- The nibble of a flags word is the code it was made of. -/
@[simp] theorem flagsOf_nibble (code : BitVec 4) : (flagsOf code).extractLsb' 28 4 = code := by
  revert code; decide

/-- Bits [27:0] of a flags word are zero (R24). -/
theorem flagsOf_low (code : BitVec 4) : (flagsOf code).extractLsb' 0 28 = 0#28 := by
  revert code; decide

/-- After a flags write the nibble is the code written. -/
@[simp] theorem condNibble_setFlags (s : State) (code : BitVec 4) : (s.setFlags code).condNibble = code :=
  flagsOf_nibble code

/-- A comparison's code is EQ, LT or GT, as the difference is zero, negative or positive (R94). -/
theorem cmpCode_cases (mode : CmpMode) (a b : Word) :
    (cmpDifference mode a b = 0 ∧ cmpCode mode a b = codeEQ) ∨ (cmpDifference mode a b < 0 ∧ cmpCode mode a b = codeLT)
      ∨ (0 < cmpDifference mode a b ∧ cmpCode mode a b = codeGT) := by
  unfold cmpCode
  rcases lt_trichotomy (cmpDifference mode a b) 0 with h | h | h
  · exact .inr (.inl ⟨h, by simp [h, ne_of_lt h]⟩)
  · exact .inl ⟨h, by simp [h]⟩
  · exact .inr (.inr ⟨h, by simp [ne_of_gt h, not_lt_of_gt h]⟩)

/-- A condition is unknown exactly under policy `Fault`, for a code outside the four (R132). -/
theorem condPass_eq_unknown (policy : UnknownCondPolicy) (cond nibble : BitVec 4) :
    condPass policy cond nibble = .unknown
      ↔ policy = .fault ∧ cond ≠ codeEQ ∧ cond ≠ codeNE ∧ cond ≠ codeLT ∧ cond ≠ codeGT := by
  revert cond nibble; cases policy <;> decide

end Sys2Proof.Machine
end

