-- ==== Sys2Proof/Laws/Memory.lean ====
section
/-! SUPPORT. Memory: a read after a write, the canonical form kept by every memory operation, and its uniqueness. -/

namespace Sys2Proof.Machine

theorem Memory.read_cons (a b m c) :
    Memory.read (Memory.cons a b m) c
      = if b = Memory.unlisted then Memory.read m c else if a = c then b else Memory.read m c := by
  unfold Memory.cons; split <;> simp [Memory.read]

/-- A write leaves every other address as it was. -/
theorem Memory.read_write_other (m : Memory) {a c : Nat} (b : Byte) (h : c ≠ a) :
    Memory.read (Memory.write m a b) c = Memory.read m c := by
  induction m with
  | nil => simp [Memory.write, Memory.read_cons, Ne.symm h]
  | cons p m ih =>
    obtain ⟨k, v⟩ := p
    simp only [Memory.write]
    split
    · simp [Memory.read_cons, Ne.symm h]
    split
    · rename_i heq
      subst heq
      simp [Memory.read_cons, Memory.read, Ne.symm h]
    · simp [Memory.read, ih]

/-- Below the first address of a canonical list every address is unlisted. -/
theorem Memory.read_below {lo a : Nat} {m : Memory} (h : Memory.wfFrom lo m = true) (ha : a < lo) :
    Memory.read m a = Memory.unlisted := by
  induction m generalizing lo with
  | nil => rfl
  | cons p m ih =>
    obtain ⟨k, v⟩ := p
    simp only [Memory.wfFrom, Bool.and_eq_true, decide_eq_true_eq] at h
    have hk : k ≠ a := by omega
    simp only [Memory.read, if_neg hk]
    exact ih h.2 (by omega)

/-- A read after a write to the same address gives the value written. -/
theorem Memory.read_write_same {m : Memory} {lo : Nat} (h : Memory.wfFrom lo m = true) (a : Nat) (b : Byte) :
    Memory.read (Memory.write m a b) a = b := by
  induction m generalizing lo with
  | nil => simp [Memory.write, Memory.read_cons, Memory.read, eq_comm]
  | cons p m ih =>
    obtain ⟨k, v⟩ := p
    have h' := h
    simp only [Memory.wfFrom, Bool.and_eq_true, decide_eq_true_eq] at h
    simp only [Memory.write]
    split
    · rename_i hlt
      rw [Memory.read_cons]
      split
      · have : Memory.wfFrom k ((k, v) :: m) = true := by simp [Memory.wfFrom, h.1, h.2]
        rw [Memory.read_below this hlt]; simp_all
      · simp
    split
    · rename_i heq
      rw [Memory.read_cons]
      split
      · rw [Memory.read_below h.2 (by omega)]; simp_all
      · simp
    · rename_i hne
      simp only [Memory.read, if_neg (Ne.symm hne)]
      exact ih h.2

/-- A list canonical from an address on is canonical from any lower one on. -/
theorem Memory.wfFrom_mono {lo lo' : Nat} {m : Memory} (h : Memory.wfFrom lo m = true) (hl : lo' ≤ lo) :
    Memory.wfFrom lo' m = true := by
  cases m with
  | nil => rfl
  | cons p m =>
    obtain ⟨k, v⟩ := p
    simp only [Memory.wfFrom, Bool.and_eq_true, decide_eq_true_eq] at h ⊢
    exact ⟨⟨⟨by omega, h.1.1.2⟩, h.1.2⟩, h.2⟩

theorem Memory.wfFrom_cons {lo a : Nat} {b : Byte} {m : Memory} (hl : lo ≤ a) (ha : a < 2 ^ addrWidth)
    (h : Memory.wfFrom (a + 1) m = true) : Memory.wfFrom lo (Memory.cons a b m) = true := by
  unfold Memory.cons
  split
  · exact Memory.wfFrom_mono h (by omega)
  · simp_all [Memory.wfFrom]

/-- A write at an address of the space keeps the canonical form. -/
theorem Memory.wfFrom_write {m : Memory} {lo a : Nat} (b : Byte) (h : Memory.wfFrom lo m = true) (hl : lo ≤ a)
    (ha : a < 2 ^ addrWidth) : Memory.wfFrom lo (Memory.write m a b) = true := by
  induction m generalizing lo with
  | nil => exact Memory.wfFrom_cons hl ha rfl
  | cons p m ih =>
    obtain ⟨k, v⟩ := p
    have h' := h
    simp only [Memory.wfFrom, Bool.and_eq_true, decide_eq_true_eq] at h
    simp only [Memory.write]
    split
    · refine Memory.wfFrom_cons hl ha ?_
      simp [Memory.wfFrom, h.1.1.2, h.1.2, h.2]
      omega
    split
    · rename_i heq
      subst heq
      exact Memory.wfFrom_cons hl ha h.2
    · simp only [Memory.wfFrom, Bool.and_eq_true, decide_eq_true_eq]
      exact ⟨h.1, ih h.2 (by omega)⟩

/-- A byte written at any 32-bit address keeps the canonical form. -/
theorem Memory.wf_write {m : Memory} (h : Memory.wf m = true) (a : Word) (b : Byte) :
    Memory.wf (Memory.write m a.toNat b) = true :=
  Memory.wfFrom_write b h (Nat.zero_le _) (by simpa [addrWidth] using a.isLt)

theorem Memory.wfFrom_filter {m : Memory} {lo : Nat} (p : Host.Cell → Bool) (h : Memory.wfFrom lo m = true) :
    Memory.wfFrom lo (m.filter p) = true := by
  induction m generalizing lo with
  | nil => rfl
  | cons q m ih =>
    obtain ⟨k, v⟩ := q
    simp only [Memory.wfFrom, Bool.and_eq_true, decide_eq_true_eq] at h
    rw [List.filter_cons]
    split
    · simp only [Memory.wfFrom, Bool.and_eq_true, decide_eq_true_eq]
      exact ⟨h.1, ih h.2⟩
    · exact Memory.wfFrom_mono (ih h.2) (by omega)

/-- Clearing a range keeps the canonical form. -/
theorem Memory.wf_clear {m : Memory} (h : Memory.wf m = true) (lo n : Nat) : Memory.wf (Memory.clear m lo n) = true :=
  Memory.wfFrom_filter _ h

/-- After clearing a range, its bytes are unlisted and every other byte is as before. -/
theorem Memory.read_clear (m : Memory) (lo n a : Nat) :
    Memory.read (Memory.clear m lo n) a
      = if lo ≤ a ∧ a < lo + n then Memory.unlisted else Memory.read m a := by
  induction m with
  | nil => simp [Memory.clear, Memory.read]
  | cons q m ih =>
    obtain ⟨k, v⟩ := q
    unfold Memory.clear at ih ⊢
    rw [List.filter_cons]
    by_cases hk : k < lo ∨ lo + n ≤ k
    · have : (decide (k < lo) || decide (lo + n ≤ k)) = true := by simpa using hk
      simp only [this, if_true, Memory.read, ih]
      by_cases hka : k = a
      · subst hka
        have : ¬ (lo ≤ k ∧ k < lo + n) := by omega
        simp [this]
      · simp [hka]
    · have : (decide (k < lo) || decide (lo + n ≤ k)) = false := by simpa using hk
      simp only [this, Bool.false_eq_true, if_false, Memory.read, ih]
      by_cases hka : k = a
      · subst hka
        have : lo ≤ k ∧ k < lo + n := by omega
        simp [this]
      · simp [hka]

/-- A canonical memory is determined by what its addresses read as: equal memories are equal data. -/
theorem Memory.ext_wfFrom {m n : Memory} {lo : Nat} (hm : Memory.wfFrom lo m = true) (hn : Memory.wfFrom lo n = true)
    (h : ∀ a, Memory.read m a = Memory.read n a) : m = n := by
  induction m generalizing n lo with
  | nil =>
    cases n with
    | nil => rfl
    | cons q n =>
      obtain ⟨k, v⟩ := q
      have := h k
      simp [Memory.wfFrom, Memory.read] at hn this
      exact absurd this.symm hn.1.2
  | cons p m ih =>
    obtain ⟨j, u⟩ := p
    cases n with
    | nil =>
      have := h j
      simp [Memory.wfFrom, Memory.read] at hm this
      exact absurd this hm.1.2
    | cons q n =>
      obtain ⟨k, v⟩ := q
      simp only [Memory.wfFrom, Bool.and_eq_true, decide_eq_true_eq, bne_iff_ne] at hm hn
      have hjk : j = k := by
        rcases Nat.lt_trichotomy j k with hlt | heq | hgt
        · have := h j
          simp only [Memory.read, if_true, if_neg (Nat.ne_of_gt hlt)] at this
          rw [Memory.read_below hn.2 (by omega)] at this
          exact absurd this hm.1.2
        · exact heq
        · have := h k
          simp only [Memory.read, if_true, if_neg (Nat.ne_of_gt hgt)] at this
          rw [Memory.read_below hm.2 (by omega)] at this
          exact absurd this.symm hn.1.2
      subst hjk
      have huv : u = v := by simpa [Memory.read] using h j
      subst huv
      have htail : ∀ a, Memory.read m a = Memory.read n a := by
        intro a
        by_cases ha : j = a
        · subst ha
          rw [Memory.read_below hm.2 (by omega), Memory.read_below hn.2 (by omega)]
        · simpa [Memory.read, ha] using h a
      rw [ih hm.2 hn.2 htail]

end Sys2Proof.Machine
end

