-- ==== Sys2Proof/Laws/State.lean ====
section
/-! SUPPORT. The small lemmas of the state's updates: one per field and update, so that no proof unfolds a record
update. -/

namespace Sys2Proof.Machine

variable (s : State)

/-! ### setReg -/

@[simp] theorem setReg_regs (r : Reg) (v : Word) : (s.setReg r v).regs = s.regs.set r v := rfl

@[simp] theorem setReg_flags (r : Reg) (v : Word) : (s.setReg r v).flags = s.flags := rfl

@[simp] theorem setReg_counters (r : Reg) (v : Word) : (s.setReg r v).counters = s.counters := rfl

@[simp] theorem setReg_runState (r : Reg) (v : Word) : (s.setReg r v).runState = s.runState := rfl

@[simp] theorem setReg_record (r : Reg) (v : Word) : (s.setReg r v).record = s.record := rfl

@[simp] theorem setReg_cache (r : Reg) (v : Word) : (s.setReg r v).cache = s.cache := rfl

@[simp] theorem setReg_mem (r : Reg) (v : Word) : (s.setReg r v).mem = s.mem := rfl

@[simp] theorem setReg_params (r : Reg) (v : Word) : (s.setReg r v).params = s.params := rfl

/-! ### setPc -/

@[simp] theorem setPc_regs (v : Word) : (s.setPc v).regs = s.regs.set pcReg v := rfl

@[simp] theorem setPc_flags (v : Word) : (s.setPc v).flags = s.flags := rfl

@[simp] theorem setPc_counters (v : Word) : (s.setPc v).counters = s.counters := rfl

@[simp] theorem setPc_runState (v : Word) : (s.setPc v).runState = s.runState := rfl

@[simp] theorem setPc_record (v : Word) : (s.setPc v).record = s.record := rfl

@[simp] theorem setPc_cache (v : Word) : (s.setPc v).cache = s.cache := rfl

@[simp] theorem setPc_mem (v : Word) : (s.setPc v).mem = s.mem := rfl

@[simp] theorem setPc_params (v : Word) : (s.setPc v).params = s.params := rfl

/-! ### advance -/

@[simp] theorem advance_regs : (s.advance).regs = s.regs.set pcReg (s.pc + 4#32) := rfl

@[simp] theorem advance_flags : (s.advance).flags = s.flags := rfl

@[simp] theorem advance_counters : (s.advance).counters = s.counters := rfl

@[simp] theorem advance_runState : (s.advance).runState = s.runState := rfl

@[simp] theorem advance_record : (s.advance).record = s.record := rfl

@[simp] theorem advance_cache : (s.advance).cache = s.cache := rfl

@[simp] theorem advance_mem : (s.advance).mem = s.mem := rfl

@[simp] theorem advance_params : (s.advance).params = s.params := rfl

/-! ### writeBack -/

@[simp] theorem writeBack_flags (d : Reg) (v : Word) : (s.writeBack d v).flags = s.flags := by
  unfold State.writeBack; split <;> rfl

@[simp] theorem writeBack_counters (d : Reg) (v : Word) : (s.writeBack d v).counters = s.counters := by
  unfold State.writeBack; split <;> rfl

@[simp] theorem writeBack_runState (d : Reg) (v : Word) : (s.writeBack d v).runState = s.runState := by
  unfold State.writeBack; split <;> rfl

@[simp] theorem writeBack_record (d : Reg) (v : Word) : (s.writeBack d v).record = s.record := by
  unfold State.writeBack; split <;> rfl

@[simp] theorem writeBack_cache (d : Reg) (v : Word) : (s.writeBack d v).cache = s.cache := by
  unfold State.writeBack; split <;> rfl

@[simp] theorem writeBack_mem (d : Reg) (v : Word) : (s.writeBack d v).mem = s.mem := by
  unfold State.writeBack; split <;> rfl

@[simp] theorem writeBack_params (d : Reg) (v : Word) : (s.writeBack d v).params = s.params := by
  unfold State.writeBack; split <;> rfl

/-! ### retire -/

@[simp] theorem retire_regs (k : Retired) : (s.retire k).regs = s.regs := rfl

@[simp] theorem retire_flags (k : Retired) : (s.retire k).flags = s.flags := rfl

@[simp] theorem retire_counters (k : Retired) : (s.retire k).counters = s.counters.count k := rfl

@[simp] theorem retire_runState (k : Retired) : (s.retire k).runState = s.runState := rfl

@[simp] theorem retire_record (k : Retired) : (s.retire k).record = s.record := rfl

@[simp] theorem retire_cache (k : Retired) : (s.retire k).cache = s.cache := rfl

@[simp] theorem retire_mem (k : Retired) : (s.retire k).mem = s.mem := rfl

@[simp] theorem retire_params (k : Retired) : (s.retire k).params = s.params := rfl

/-! ### writeByte -/

@[simp] theorem writeByte_regs (a : Word) (b : Byte) : (s.writeByte a b).regs = s.regs := rfl

@[simp] theorem writeByte_flags (a : Word) (b : Byte) : (s.writeByte a b).flags = s.flags := rfl

@[simp] theorem writeByte_counters (a : Word) (b : Byte) : (s.writeByte a b).counters = s.counters := rfl

@[simp] theorem writeByte_runState (a : Word) (b : Byte) : (s.writeByte a b).runState = s.runState := rfl

@[simp] theorem writeByte_record (a : Word) (b : Byte) : (s.writeByte a b).record = s.record := rfl

@[simp] theorem writeByte_cache (a : Word) (b : Byte) : (s.writeByte a b).cache = s.cache := rfl

@[simp] theorem writeByte_mem (a : Word) (b : Byte) : (s.writeByte a b).mem = Memory.write s.mem a.toNat b := rfl

@[simp] theorem writeByte_params (a : Word) (b : Byte) : (s.writeByte a b).params = s.params := rfl

/-! ### writeWord -/

@[simp] theorem writeWord_regs (a v : Word) : (s.writeWord a v).regs = s.regs := rfl

@[simp] theorem writeWord_flags (a v : Word) : (s.writeWord a v).flags = s.flags := rfl

@[simp] theorem writeWord_counters (a v : Word) : (s.writeWord a v).counters = s.counters := rfl

@[simp] theorem writeWord_runState (a v : Word) : (s.writeWord a v).runState = s.runState := rfl

@[simp] theorem writeWord_record (a v : Word) : (s.writeWord a v).record = s.record := rfl

@[simp] theorem writeWord_cache (a v : Word) : (s.writeWord a v).cache = s.cache := rfl

@[simp] theorem writeWord_params (a v : Word) : (s.writeWord a v).params = s.params := rfl

/-! ### setFlags -/

@[simp] theorem setFlags_regs (code : BitVec 4) : (s.setFlags code).regs = s.regs := rfl

@[simp] theorem setFlags_flags (code : BitVec 4) : (s.setFlags code).flags = flagsOf code := rfl

@[simp] theorem setFlags_counters (code : BitVec 4) : (s.setFlags code).counters = s.counters := rfl

@[simp] theorem setFlags_runState (code : BitVec 4) : (s.setFlags code).runState = s.runState := rfl

@[simp] theorem setFlags_record (code : BitVec 4) : (s.setFlags code).record = s.record := rfl

@[simp] theorem setFlags_cache (code : BitVec 4) : (s.setFlags code).cache = s.cache := rfl

@[simp] theorem setFlags_mem (code : BitVec 4) : (s.setFlags code).mem = s.mem := rfl

@[simp] theorem setFlags_params (code : BitVec 4) : (s.setFlags code).params = s.params := rfl

/-! ### raise -/

@[simp] theorem raise_regs (c : Cause) (word addr : Option Word) : (s.raise c word addr).regs = s.regs := rfl

@[simp] theorem raise_flags (c : Cause) (word addr : Option Word) : (s.raise c word addr).flags = s.flags := rfl

@[simp] theorem raise_counters (c : Cause) (word addr : Option Word) : (s.raise c word addr).counters = s.counters := rfl

@[simp] theorem raise_runState (c : Cause) (word addr : Option Word) : (s.raise c word addr).runState = .faulted := rfl

@[simp] theorem raise_record (c : Cause) (word addr : Option Word) : (s.raise c word addr).record = some (faultRecord c (some s.pc) word addr) := rfl

@[simp] theorem raise_cache (c : Cause) (word addr : Option Word) : (s.raise c word addr).cache = s.cache := rfl

@[simp] theorem raise_mem (c : Cause) (word addr : Option Word) : (s.raise c word addr).mem = s.mem := rfl

@[simp] theorem raise_params (c : Cause) (word addr : Option Word) : (s.raise c word addr).params = s.params := rfl

/-! ### halt -/

@[simp] theorem halt_regs : (s.halt).regs = s.regs := rfl

@[simp] theorem halt_flags : (s.halt).flags = s.flags := rfl

@[simp] theorem halt_counters : (s.halt).counters = s.counters := rfl

@[simp] theorem halt_runState : (s.halt).runState = .halted := rfl

@[simp] theorem halt_record : (s.halt).record = s.record := rfl

@[simp] theorem halt_cache : (s.halt).cache = s.cache := rfl

@[simp] theorem halt_mem : (s.halt).mem = s.mem := rfl

@[simp] theorem halt_params : (s.halt).params = s.params := rfl

/-! ### resetForCall -/

@[simp] theorem resetForCall_flags (entry a0 a1 a2 a3 : Word) : (s.resetForCall entry a0 a1 a2 a3).flags = 0#32 := rfl

@[simp] theorem resetForCall_counters (entry a0 a1 a2 a3 : Word) : (s.resetForCall entry a0 a1 a2 a3).counters = Counters.zero := rfl

@[simp] theorem resetForCall_runState (entry a0 a1 a2 a3 : Word) : (s.resetForCall entry a0 a1 a2 a3).runState = .running := rfl

@[simp] theorem resetForCall_record (entry a0 a1 a2 a3 : Word) : (s.resetForCall entry a0 a1 a2 a3).record = none := rfl

@[simp] theorem resetForCall_cache (entry a0 a1 a2 a3 : Word) : (s.resetForCall entry a0 a1 a2 a3).cache = s.cache := rfl

@[simp] theorem resetForCall_mem (entry a0 a1 a2 a3 : Word) : (s.resetForCall entry a0 a1 a2 a3).mem = Memory.clear s.mem s.params.stackBase.toNat stackSize := rfl

@[simp] theorem resetForCall_params (entry a0 a1 a2 a3 : Word) : (s.resetForCall entry a0 a1 a2 a3).params = s.params := rfl

end Sys2Proof.Machine
end

