-- ==== Sys2Proof/Laws/Ops.lean ====
section
/-! SUPPORT. What each shared operation does, once: registers, the write back, memory words, faults, fetch. -/

namespace Sys2Proof.Machine

variable (s : State)

/-! ### Registers -/

/-- A register write: the register holds the value and every other register is as before. -/
theorem reg_setReg (r q : Reg) (v : Word) : (s.setReg r v).reg q = if q = r then v else s.reg q := by
  simp only [State.reg, setReg_regs, Fin.getElem_fin, Vector.getElem_set, Fin.ext_iff]
  simp only [eq_comm]

@[simp] theorem reg_setReg_same (r : Reg) (v : Word) : (s.setReg r v).reg r = v := by simp [reg_setReg]

theorem reg_setReg_ne {r q : Reg} (v : Word) (h : q ≠ r) : (s.setReg r v).reg q = s.reg q := by simp [reg_setReg, h]

theorem reg_setPc (q : Reg) (v : Word) : (s.setPc v).reg q = if q = pcReg then v else s.reg q := reg_setReg s pcReg q v

@[simp] theorem pc_setPc (v : Word) : (s.setPc v).pc = v := reg_setReg_same s pcReg v

theorem reg_advance (q : Reg) : s.advance.reg q = if q = pcReg then s.pc + 4#32 else s.reg q := reg_setPc s q _

@[simp] theorem pc_advance : s.advance.pc = s.pc + 4#32 := pc_setPc s _

/-- `WriteBack`: the destination holds the value; the PC is `cur + 4` unless it is the destination; every other
register is as before (R156). -/
theorem reg_writeBack (d q : Reg) (v : Word) :
    (s.writeBack d v).reg q = if q = d then v else if q = pcReg then s.pc + 4#32 else s.reg q := by
  unfold State.writeBack
  split
  · subst_vars; rw [reg_setPc]; split <;> rfl
  · rw [reg_setReg, reg_advance]

theorem pc_writeBack (d : Reg) (v : Word) : (s.writeBack d v).pc = if d = pcReg then v else s.pc + 4#32 := by
  unfold State.pc
  rw [reg_writeBack]
  simp only [eq_comm, if_true]
  rfl

/-! Updates that leave the registers alone leave every read of one alone. -/

@[simp] theorem reg_retire (k : Retired) (q : Reg) : (s.retire k).reg q = s.reg q := rfl
@[simp] theorem reg_writeByte (a : Word) (b : Byte) (q : Reg) : (s.writeByte a b).reg q = s.reg q := rfl
@[simp] theorem reg_writeWord (a v : Word) (q : Reg) : (s.writeWord a v).reg q = s.reg q := rfl
@[simp] theorem reg_setFlags (c : BitVec 4) (q : Reg) : (s.setFlags c).reg q = s.reg q := rfl
@[simp] theorem reg_raise (c : Cause) (w a : Option Word) (q : Reg) : (s.raise c w a).reg q = s.reg q := rfl
@[simp] theorem reg_halt (q : Reg) : s.halt.reg q = s.reg q := rfl
@[simp] theorem pc_retire (k : Retired) : (s.retire k).pc = s.pc := rfl
@[simp] theorem pc_writeByte (a : Word) (b : Byte) : (s.writeByte a b).pc = s.pc := rfl
@[simp] theorem pc_writeWord (a v : Word) : (s.writeWord a v).pc = s.pc := rfl
@[simp] theorem pc_setFlags (c : BitVec 4) : (s.setFlags c).pc = s.pc := rfl
@[simp] theorem pc_raise (c : Cause) (w a : Option Word) : (s.raise c w a).pc = s.pc := rfl
@[simp] theorem pc_halt : s.halt.pc = s.pc := rfl

/-! ### Memory bytes and words -/

/-- Equal memories read the same. -/
theorem readByte_of_mem_eq {s t : State} (h : t.mem = s.mem) (a : Word) : t.readByte a = s.readByte a := by
  simp [State.readByte, h]

theorem readByte_writeByte_other {a c : Word} (b : Byte) (h : c ≠ a) : (s.writeByte a b).readByte c = s.readByte c :=
  Memory.read_write_other s.mem b (fun h' => h (BitVec.eq_of_toNat_eq h'))

theorem readByte_writeByte_same {s : State} (hw : Memory.wf s.mem = true) (a : Word) (b : Byte) :
    (s.writeByte a b).readByte a = b :=
  Memory.read_write_same hw a.toNat b

theorem wf_writeByte {s : State} (hw : Memory.wf s.mem = true) (a : Word) (b : Byte) :
    Memory.wf (s.writeByte a b).mem = true :=
  Memory.wf_write hw a b

theorem wf_writeWord {s : State} (hw : Memory.wf s.mem = true) (a v : Word) :
    Memory.wf (s.writeWord a v).mem = true :=
  wf_writeByte (wf_writeByte (wf_writeByte (wf_writeByte hw _ _) _ _) _ _) _ _

theorem wf_resetForCall {s : State} (hw : Memory.wf s.mem = true) (e a0 a1 a2 a3 : Word) :
    Memory.wf (s.resetForCall e a0 a1 a2 a3).mem = true :=
  Memory.wf_clear hw _ _

/-- The reset memory has the canonical form. -/
theorem wf_reset : Memory.wf State.reset.mem = true := rfl

/-- A word write leaves every byte but its four as it was. -/
theorem readByte_writeWord_other {a c : Word} (v : Word) (h : ∀ k : Nat, k < 4 → c ≠ a + BitVec.ofNat 32 k) :
    (s.writeWord a v).readByte c = s.readByte c := by
  unfold State.writeWord
  rw [readByte_writeByte_other _ _ (h 3 (by omega)), readByte_writeByte_other _ _ (h 2 (by omega)),
    readByte_writeByte_other _ _ (h 1 (by omega)), readByte_writeByte_other _ _ (by simpa using h 0 (by omega))]

/-- The four bytes of a word written are the word's bytes in the byte order (R46). -/
theorem readByte_writeWord {s : State} (hw : Memory.wf s.mem = true) (a v : Word) {k : Nat} (hk : k < 4) :
    (s.writeWord a v).readByte (a + BitVec.ofNat 32 k) = storedByte s.params.endian v k := by
  have e : ∀ i j : Nat, i < 4 → j < 4 → i ≠ j → a + BitVec.ofNat 32 i ≠ a + BitVec.ofNat 32 j := by
    intro i j hi hj hij h
    have := congrArg BitVec.toNat ((BitVec.add_right_inj a).mp h)
    simp only [BitVec.toNat_ofNat] at this
    omega
  have w0 := wf_writeByte hw a (storedByte s.params.endian v 0)
  have w1 := wf_writeByte w0 (a + 1#32) (storedByte s.params.endian v 1)
  have w2 := wf_writeByte w1 (a + 2#32) (storedByte s.params.endian v 2)
  unfold State.writeWord
  obtain rfl | rfl | rfl | rfl : k = 0 ∨ k = 1 ∨ k = 2 ∨ k = 3 := by omega
  · rw [readByte_writeByte_other _ _ (e 0 3 (by omega) (by omega) (by omega)),
      readByte_writeByte_other _ _ (e 0 2 (by omega) (by omega) (by omega)),
      readByte_writeByte_other _ _ (e 0 1 (by omega) (by omega) (by omega))]
    simpa using readByte_writeByte_same hw a _
  · rw [readByte_writeByte_other _ _ (e 1 3 (by omega) (by omega) (by omega)),
      readByte_writeByte_other _ _ (e 1 2 (by omega) (by omega) (by omega))]
    exact readByte_writeByte_same w0 _ _
  · rw [readByte_writeByte_other _ _ (e 2 3 (by omega) (by omega) (by omega))]
    exact readByte_writeByte_same w1 _ _
  · exact readByte_writeByte_same w2 _ _

/-- The word of a word's own bytes. -/
theorem wordOfBytes_storedByte (e : Endian) (v : Word) :
    wordOfBytes e (storedByte e v 0) (storedByte e v 1) (storedByte e v 2) (storedByte e v 3) = v := by
  have key : byteOfWord v 3 ++ byteOfWord v 2 ++ byteOfWord v 1 ++ byteOfWord v 0 = v := by
    apply BitVec.eq_of_getLsbD_eq
    intro i hi
    simp only [byteOfWord, BitVec.getLsbD_append, BitVec.getLsbD_extractLsb']
    by_cases h0 : i < 8
    · simp [h0]
    by_cases h1 : i - 8 < 8
    · simp [h0, h1, show 8 + (i - 8) = i by omega]
    by_cases h2 : i - 8 - 8 < 8
    · simp only [h0, h1, h2, if_false, if_true, decide_true, Bool.true_and]
      rw [show 8 * 2 + (i - 8 - 8) = i by omega]
    · have h3 : i - 8 - 8 - 8 < 8 := by omega
      simp only [h0, h1, h2, h3, if_false, decide_true, Bool.true_and]
      rw [show 8 * 3 + (i - 8 - 8 - 8) = i by omega]
  cases e <;> simpa [wordOfBytes, storedByte] using key

/-! ### Faults -/

/-- Taking a fault: FAULTED, the record, and nothing else (R195, R198). -/
theorem raise_spec (c : Cause) (w a : Option Word) :
    (s.raise c w a).runState = .faulted ∧ (s.raise c w a).record = some (faultRecord c (some s.pc) w a)
      ∧ (s.raise c w a).regs = s.regs ∧ (s.raise c w a).flags = s.flags ∧ (s.raise c w a).counters = s.counters
      ∧ (s.raise c w a).mem = s.mem ∧ (s.raise c w a).cache = s.cache ∧ (s.raise c w a).params = s.params :=
  ⟨rfl, rfl, rfl, rfl, rfl, rfl, rfl, rfl⟩

/-! ### Fetch and the cache access -/

/-- A fetch answers a word exactly when the address is aligned and admitted, and then it is the word there (R49). -/
theorem fetch_eq_ok {a iw : Word} :
    s.fetch a = .ok iw ↔ aligned4 a = true ∧ admitted s.params .fetch a 4 = true ∧ iw = s.readWord a := by
  unfold State.fetch
  cases aligned4 a <;> cases admitted s.params .fetch a 4 <;> simp [eq_comm (a := iw)]

/-- A fetch's fault is `MisalignedFetch` or, at an aligned address, `OutOfBounds` (R49). -/
theorem fetch_eq_error {a : Word} {c : Cause} :
    s.fetch a = .error c ↔ (aligned4 a = false ∧ c = .misalignedFetch)
      ∨ (aligned4 a = true ∧ admitted s.params .fetch a 4 = false ∧ c = .outOfBounds) := by
  unfold State.fetch
  cases aligned4 a <;> cases admitted s.params .fetch a 4 <;> simp [eq_comm (a := c)]

/-- A cache access changes the cache and nothing else (R154, R180). -/
theorem observe_spec {s t : State} {iw : Word} (h : s.observe iw = some t) :
    ∃ c, s.cache = some c
      ∧ t = { s with cache := some (c.access s.params.tagMode (cacheKeyOf s.params.cacheKey iw s.pc)) } := by
  unfold State.observe at h
  obtain ⟨c, hc, rfl⟩ := Option.map_eq_some_iff.mp h
  exact ⟨c, hc, rfl⟩

/-! ### Reset -/

/-- The registers after `reset_for_call` (R212). -/
theorem reg_resetForCall (e a0 a1 a2 a3 : Word) (r : Reg) :
    (s.resetForCall e a0 a1 a2 a3).reg r
      = if r = 15 then e else if r = 13 then stackTop s.params else if r = 0 then a0 else if r = 1 then a1
        else if r = 2 then a2 else if r = 3 then a3 else 0#32 := by
  fin_cases r <;> rfl

end Sys2Proof.Machine
end

