-- ==== Sys2Proof/Laws/Exec.lean ====
section
/-! SUPPORT. What each shared part of a meaning can do, and what an instruction can do at all. -/

namespace Sys2Proof.Machine

/-- The destination-field check: the fault when the field is 15, else as given (R98, R120). -/
theorem guardPcField_cases (i : Instr) (rd : Reg) (s : State) (go : Result) :
    (rd = pcReg ∧ guardPcField i rd s go = .next (s.raise .unpredictablePcField (some (encode i)) none))
      ∨ (rd ≠ pcReg ∧ guardPcField i rd s go = go) := by
  unfold guardPcField
  by_cases h : rd = pcReg
  · exact .inl ⟨h, if_pos h⟩
  · exact .inr ⟨h, if_neg h⟩

/-- The alignment check (R47). -/
theorem guardAligned_cases (i : Instr) (ea : Word) (s : State) (go : Result) :
    (aligned4 ea = false ∧ guardAligned i ea s go = .next (s.raise .misalignedData (some (encode i)) (some ea)))
      ∨ (aligned4 ea = true ∧ guardAligned i ea s go = go) := by
  unfold guardAligned
  cases h : aligned4 ea
  · exact .inl ⟨rfl, rfl⟩
  · exact .inr ⟨rfl, rfl⟩

/-- The region check (R44). -/
theorem guardAdmitted_cases (i : Instr) (k : Access) (ea : Word) (n : Nat) (s : State) (go : Result) :
    (admitted s.params k ea n = false
        ∧ guardAdmitted i k ea n s go = .next (s.raise .outOfBounds (some (encode i)) (some ea)))
      ∨ (admitted s.params k ea n = true ∧ guardAdmitted i k ea n s go = go) := by
  unfold guardAdmitted
  cases h : admitted s.params k ea n
  · exact .inl ⟨rfl, rfl⟩
  · exact .inr ⟨rfl, rfl⟩

/-- A conditional branch is taken, not taken, or faults (R131, R132, R135). -/
theorem branchOn_cases (i : Instr) (cond : BitVec 4) (s t : State) :
    (condPass s.params.unknownCondPolicy cond s.condNibble = .pass ∧ branchOn i cond s t = .next (t.retire .brTaken))
      ∨ (condPass s.params.unknownCondPolicy cond s.condNibble = .fail
          ∧ branchOn i cond s t = .next (s.advance.retire .brNotTaken))
      ∨ (condPass s.params.unknownCondPolicy cond s.condNibble = .unknown
          ∧ branchOn i cond s t = .next (s.raise .unknownCondition (some (encode i)) none)) := by
  unfold branchOn
  cases condPass s.params.unknownCondPolicy cond s.condNibble
  · exact .inl ⟨rfl, rfl⟩
  · exact .inr (.inl ⟨rfl, rfl⟩)
  · exact .inr (.inr ⟨rfl, rfl⟩)

/-- What an instruction can do to a state: the shapes of every next state `exec` answers. -/
inductive Effect (s : State) : State → Prop where
  | fault (c : Cause) (w a : Option Word)
      (hc : c = .unknownCondition ∨ c = .unpredictablePcField ∨ c = .misalignedData ∨ c = .outOfBounds) :
      Effect s (s.raise c w a)
  | write (d : Reg) (v : Word) (k : Retired) (hk : k = .dp ∨ k = .mem) : Effect s ((s.writeBack d v).retire k)
  | compare (a b : Word) : Effect s (((s.setFlags (cmpCode s.params.cmpMode a b)).advance).retire .dp)
  | noop : Effect s (s.advance.retire .dp)
  | storeWord (ea v : Word) (hal : aligned4 ea = true) (had : admitted s.params .store ea 4 = true) :
      Effect s (((s.writeWord ea v).advance).retire .mem)
  | storeByte (ea : Word) (v : Byte) (had : admitted s.params .store ea 1 = true) :
      Effect s (((s.writeByte ea v).advance).retire .mem)
  | jump (v : Word) : Effect s ((s.setPc v).retire .brTaken)
  | link (v : Word) : Effect s (((s.setReg lrReg (s.pc + 4#32)).setPc v).retire .brTaken)
  | notTaken : Effect s (s.advance.retire .brNotTaken)

theorem dpNoop_effect (i : Instr) (f : DpFields) (s : State) : ∃ t, dpNoop i f s = .next t ∧ Effect s t := by
  unfold dpNoop
  rcases guardPcField_cases i f.rd s (.next (s.advance.retire .dp)) with ⟨-, h⟩ | ⟨-, h⟩
  · exact ⟨_, h, .fault _ _ _ (by decide)⟩
  · exact ⟨_, h, .noop⟩

theorem execCmp_effect (f : DpFields) (s : State) : ∃ t, execCmp f s = .next t ∧ Effect s t := by
  unfold execCmp
  rcases guardPcField_cases (.cmp f) f.rd s _ with ⟨-, h⟩ | ⟨-, h⟩
  · exact ⟨_, h, .fault _ _ _ (by decide)⟩
  · exact ⟨_, h, .compare _ _⟩

theorem execLdr_effect (f : MemFields) (s : State) : ∃ t, execLdr f s = .next t ∧ Effect s t := by
  unfold execLdr
  rcases guardAligned_cases (.ldr f) (s.effectiveAddress f) s _ with ⟨-, h⟩ | ⟨-, h⟩
  · exact ⟨_, h, .fault _ _ _ (by decide)⟩
  rcases guardAdmitted_cases (.ldr f) .load (s.effectiveAddress f) 4 s _ with ⟨-, h'⟩ | ⟨-, h'⟩
  · exact ⟨_, h.trans h', .fault _ _ _ (by decide)⟩
  · exact ⟨_, h.trans h', .write _ _ _ (.inr rfl)⟩

theorem execLdrb_effect (f : MemFields) (s : State) : ∃ t, execLdrb f s = .next t ∧ Effect s t := by
  unfold execLdrb
  rcases guardAdmitted_cases (.ldrb f) .load (s.effectiveAddress f) 1 s _ with ⟨-, h⟩ | ⟨-, h⟩
  · exact ⟨_, h, .fault _ _ _ (by decide)⟩
  · exact ⟨_, h, .write _ _ _ (.inr rfl)⟩

theorem execStr_effect (f : MemFields) (s : State) : ∃ t, execStr f s = .next t ∧ Effect s t := by
  unfold execStr
  rcases guardPcField_cases (.str f) f.rd s _ with ⟨-, h⟩ | ⟨-, h⟩
  · exact ⟨_, h, .fault _ _ _ (by decide)⟩
  rcases guardAligned_cases (.str f) (s.effectiveAddress f) s _ with ⟨-, h'⟩ | ⟨hal, h'⟩
  · exact ⟨_, h.trans h', .fault _ _ _ (by decide)⟩
  rcases guardAdmitted_cases (.str f) .store (s.effectiveAddress f) 4 s _ with ⟨-, h''⟩ | ⟨had, h''⟩
  · exact ⟨_, h.trans (h'.trans h''), .fault _ _ _ (by decide)⟩
  · exact ⟨_, h.trans (h'.trans h''), .storeWord _ _ hal had⟩

theorem execStrb_effect (f : MemFields) (s : State) : ∃ t, execStrb f s = .next t ∧ Effect s t := by
  unfold execStrb
  rcases guardPcField_cases (.strb f) f.rd s _ with ⟨-, h⟩ | ⟨-, h⟩
  · exact ⟨_, h, .fault _ _ _ (by decide)⟩
  rcases guardAdmitted_cases (.strb f) .store (s.effectiveAddress f) 1 s _ with ⟨-, h'⟩ | ⟨had, h'⟩
  · exact ⟨_, h.trans h', .fault _ _ _ (by decide)⟩
  · exact ⟨_, h.trans h', .storeByte _ _ had⟩

theorem execB_effect (f : BranchFields) (s : State) : ∃ t, execB f s = .next t ∧ Effect s t := by
  unfold execB
  rcases branchOn_cases (.b f) f.cond s _ with ⟨-, h⟩ | ⟨-, h⟩ | ⟨-, h⟩
  · exact ⟨_, h, .jump _⟩
  · exact ⟨_, h, .notTaken⟩
  · exact ⟨_, h, .fault _ _ _ (by decide)⟩

theorem execBl_effect (f : BranchFields) (s : State) : ∃ t, execBl f s = .next t ∧ Effect s t := by
  unfold execBl
  rcases branchOn_cases (.bl f) f.cond s _ with ⟨-, h⟩ | ⟨-, h⟩ | ⟨-, h⟩
  · exact ⟨_, h, .link _⟩
  · exact ⟨_, h, .notTaken⟩
  · exact ⟨_, h, .fault _ _ _ (by decide)⟩

/-- Every instruction answers a next state, and it is one of the shapes of `Effect`. -/
theorem exec_effect (i : Instr) (s : State) : ∃ t, exec i s = .next t ∧ Effect s t := by
  cases i with
  | bx f => exact ⟨_, rfl, .jump _⟩
  | mul f => exact ⟨_, rfl, .write _ _ _ (.inl rfl)⟩
  | ldr f => exact execLdr_effect f s
  | ldrb f => exact execLdrb_effect f s
  | str f => exact execStr_effect f s
  | strb f => exact execStrb_effect f s
  | add f => exact ⟨_, rfl, .write _ _ _ (.inl rfl)⟩
  | sub f => exact ⟨_, rfl, .write _ _ _ (.inl rfl)⟩
  | cmp f => exact execCmp_effect f s
  | mov f => exact ⟨_, rfl, .write _ _ _ (.inl rfl)⟩
  | dpnopAnd f => exact dpNoop_effect _ f s
  | dpnopEor f => exact dpNoop_effect _ f s
  | dpnopRsb f => exact dpNoop_effect _ f s
  | dpnopAdc f => exact dpNoop_effect _ f s
  | dpnopSbc f => exact dpNoop_effect _ f s
  | dpnopRsc f => exact dpNoop_effect _ f s
  | dpnopTst f => exact dpNoop_effect _ f s
  | dpnopTeq f => exact dpNoop_effect _ f s
  | dpnopCmn f => exact dpNoop_effect _ f s
  | dpnopOrr f => exact dpNoop_effect _ f s
  | dpnopBic f => exact dpNoop_effect _ f s
  | dpnopMvn f => exact dpNoop_effect _ f s
  | b f => exact execB_effect f s
  | bl f => exact execBl_effect f s

/-- An instruction's next state has one of the shapes of `Effect`. -/
theorem effect_of_exec {i : Instr} {s t : State} (h : exec i s = .next t) : Effect s t := by
  obtain ⟨u, hu, he⟩ := exec_effect i s
  rw [h] at hu
  cases hu
  exact he

end Sys2Proof.Machine
end

