-- ==== Sys2Proof/Laws/PerInstr.lean ====
section
/-! SUPPORT. Statements made once per instruction. `EncodesToItsClass`: the word of a well-formed instruction is
classified in the instruction's own class (R74 to R79). -/

namespace Sys2Proof.Laws

/-- The encoding of a well-formed instruction is classified in its class. -/
def EncodesToItsClass.Statement (i : Instr) : Prop := i.wf = true → classify (encode i) = i.cls

theorem EncodesToItsClass.bx (f : BxFields) : EncodesToItsClass.Statement (.bx f) :=
  fun _ => classify_encodeBx f

theorem EncodesToItsClass.mul (f : MulFields) : EncodesToItsClass.Statement (.mul f) :=
  fun _ => classify_encodeMul f

theorem EncodesToItsClass.ldr (f : MemFields) : EncodesToItsClass.Statement (.ldr f) :=
  fun _ => classify_encodeMem true false f

theorem EncodesToItsClass.ldrb (f : MemFields) : EncodesToItsClass.Statement (.ldrb f) :=
  fun _ => classify_encodeMem true true f

theorem EncodesToItsClass.str (f : MemFields) : EncodesToItsClass.Statement (.str f) :=
  fun _ => classify_encodeMem false false f

theorem EncodesToItsClass.strb (f : MemFields) : EncodesToItsClass.Statement (.strb f) :=
  fun _ => classify_encodeMem false true f

theorem EncodesToItsClass.add (f : DpFields) : EncodesToItsClass.Statement (.add f) :=
  fun h => classify_encodeDp h (.inl (by decide))

theorem EncodesToItsClass.sub (f : DpFields) : EncodesToItsClass.Statement (.sub f) :=
  fun h => classify_encodeDp h (.inl (by decide))

theorem EncodesToItsClass.cmp (f : DpFields) : EncodesToItsClass.Statement (.cmp f) :=
  fun h => classify_encodeDp h (.inl (by decide))

theorem EncodesToItsClass.mov (f : DpFields) : EncodesToItsClass.Statement (.mov f) :=
  fun h => classify_encodeDp h (.inl (by decide))

theorem EncodesToItsClass.dpnopAnd (f : DpFields) : EncodesToItsClass.Statement (.dpnopAnd f) :=
  fun h => classify_encodeDp h (.inl (by decide))

theorem EncodesToItsClass.dpnopEor (f : DpFields) : EncodesToItsClass.Statement (.dpnopEor f) :=
  fun h => classify_encodeDp h (.inl (by decide))

theorem EncodesToItsClass.dpnopRsb (f : DpFields) : EncodesToItsClass.Statement (.dpnopRsb f) :=
  fun h => classify_encodeDp h (.inl (by decide))

theorem EncodesToItsClass.dpnopAdc (f : DpFields) : EncodesToItsClass.Statement (.dpnopAdc f) :=
  fun h => classify_encodeDp h (.inl (by decide))

theorem EncodesToItsClass.dpnopSbc (f : DpFields) : EncodesToItsClass.Statement (.dpnopSbc f) :=
  fun h => classify_encodeDp h (.inl (by decide))

theorem EncodesToItsClass.dpnopRsc (f : DpFields) : EncodesToItsClass.Statement (.dpnopRsc f) :=
  fun h => classify_encodeDp h (.inl (by decide))

theorem EncodesToItsClass.dpnopTst (f : DpFields) : EncodesToItsClass.Statement (.dpnopTst f) :=
  fun h => classify_encodeDp h (.inl (by decide))

theorem EncodesToItsClass.dpnopTeq (f : DpFields) : EncodesToItsClass.Statement (.dpnopTeq f) := fun h => by
  simp only [Instr.wf, Bool.and_eq_true, Bool.not_eq_true'] at h
  exact classify_encodeDp h.1 (.inr h.2)

theorem EncodesToItsClass.dpnopCmn (f : DpFields) : EncodesToItsClass.Statement (.dpnopCmn f) :=
  fun h => classify_encodeDp h (.inl (by decide))

theorem EncodesToItsClass.dpnopOrr (f : DpFields) : EncodesToItsClass.Statement (.dpnopOrr f) :=
  fun h => classify_encodeDp h (.inl (by decide))

theorem EncodesToItsClass.dpnopBic (f : DpFields) : EncodesToItsClass.Statement (.dpnopBic f) :=
  fun h => classify_encodeDp h (.inl (by decide))

theorem EncodesToItsClass.dpnopMvn (f : DpFields) : EncodesToItsClass.Statement (.dpnopMvn f) :=
  fun h => classify_encodeDp h (.inl (by decide))

theorem EncodesToItsClass.b (f : BranchFields) : EncodesToItsClass.Statement (.b f) :=
  fun _ => classify_encodeBranch false f

theorem EncodesToItsClass.bl (f : BranchFields) : EncodesToItsClass.Statement (.bl f) :=
  fun _ => classify_encodeBranch true f

end Sys2Proof.Laws
end

