-- ==== Sys2Proof/Laws/Safety.lean ====
section
/-! SUPPORT. The terms of the statements against the machine's own: R41's table and R47's alignment, the operands that
differ in ignored bits only, the fault that differs in its word only, and what the host reads in each run state. -/

namespace Sys2Proof.Machine

/-- The machine's region check is the byte-wise one, for an access of at least one byte. -/
theorem regionHolds_iff (r : Region) (a : Word) {n : Nat} (hn : 0 < n) :
    regionHolds r a n = true ↔ holdsBytes r a n := by
  simp only [regionHolds, holdsBytes, Bool.and_eq_true, decide_eq_true_eq]
  constructor
  · intro h k hk
    omega
  · intro h
    have first := h 0 hn
    have last := h (n - 1) (by omega)
    omega

/-- The machine admits exactly what R41's table admits. -/
theorem admitted_iff (p : Params) (kind : Access) (a : Word) {n : Nat} (hn : 0 < n) :
    admitted p kind a n = true ↔ admits p kind a n := by
  cases kind <;>
    simp only [admitted, admittingRegions, stackRegion, stackSize, admits, List.any_cons, List.any_append,
      List.any_eq_true, Bool.or_eq_true, regionHolds_iff _ a hn]

theorem admitted_eq_false_iff (p : Params) (kind : Access) (a : Word) {n : Nat} (hn : 0 < n) :
    admitted p kind a n = false ↔ ¬ admits p kind a n := by
  rw [← admitted_iff p kind a hn, Bool.not_eq_true]

theorem aligned4_iff (a : Word) : aligned4 a = true ↔ multipleOf4 a := by
  simp only [aligned4, multipleOf4, beq_iff_eq]

theorem aligned4_eq_false_iff (a : Word) : aligned4 a = false ↔ ¬ multipleOf4 a := by
  rw [← aligned4_iff, Bool.not_eq_true]

/-- Operands that differ in ignored bits only have one value. -/
theorem operand2_of_sameRead (s : State) {o q : Operand2} (h : sameReadOperand o q) : s.operand2 o = s.operand2 q := by
  cases o <;> cases q <;> simp_all only [sameReadOperand, State.operand2]

/-- Offsets that differ in ignored bits only have one value. -/
theorem memOffset_of_sameRead (s : State) {o q : Offset} (h : sameReadOffset o q) : s.memOffset o = s.memOffset q := by
  cases o <;> cases q <;> simp_all only [sameReadOffset, State.memOffset]

/-- Two faults that differ in the word of their record only. -/
theorem withoutWord_raise (s : State) (c : Cause) (v w a : Option Word) :
    withoutWord (.next (s.raise c v a)) = withoutWord (.next (s.raise c w a)) := rfl

/-- The host reads of `afterCall` answer in HALTED and FAULTED and in no other run state. -/
theorem afterCall_eq {α : Type} (s : State) (x : Option α) :
    s.afterCall x = if s.runState = .halted ∨ s.runState = .faulted then x else none := by
  unfold State.afterCall
  cases s.runState <;> rfl

end Sys2Proof.Machine
end

