-- ==== Sys2Proof/Laws/Step.lean ====
section
/-! SUPPORT. What a step can do: the sequencer's ways to end, said once. -/

namespace Sys2Proof.Machine

/-- What the sequencer comes to in RUNNING, with every guard on the way (R151 to R155, R161, R163). -/
theorem runningFrontEnd_cases (s : State) :
    (s.pc = 0#32 ∧ s.runningFrontEnd = .ends s.halt)
      ∨ (s.pc ≠ 0#32 ∧ s.counters.total = s.params.stepLimit
          ∧ s.runningFrontEnd = .ends (s.raise .nonTermination none none))
      ∨ (s.pc ≠ 0#32 ∧ s.counters.total ≠ s.params.stepLimit
          ∧ ((∃ c, s.fetch s.pc = .error c ∧ s.runningFrontEnd = .ends (s.raise c none (some s.pc)))
            ∨ (∃ iw, s.fetch s.pc = .ok iw
                ∧ ((s.observe iw = none ∧ s.runningFrontEnd = .stuck .noCache)
                  ∨ (∃ t, s.observe iw = some t
                      ∧ ((∃ i, decodeWord iw = .ok i ∧ s.runningFrontEnd = .runs i t)
                        ∨ (∃ e, decodeWord iw = .error e
                            ∧ s.runningFrontEnd = .ends (t.raise .decodeError (some iw) none)))))))) := by
  unfold State.runningFrontEnd
  by_cases h0 : s.pc = 0#32
  · exact .inl ⟨h0, if_pos h0⟩
  by_cases hb : s.counters.total = s.params.stepLimit
  · exact .inr (.inl ⟨h0, hb, by rw [if_neg h0, if_pos hb]⟩)
  refine .inr (.inr ⟨h0, hb, ?_⟩)
  rw [if_neg h0, if_neg hb]
  cases hf : s.fetch s.pc with
  | error c => exact .inl ⟨c, rfl, rfl⟩
  | ok iw =>
    refine .inr ⟨iw, rfl, ?_⟩
    simp only [State.classifyFetched]
    cases ho : s.observe iw with
    | none => exact .inl ⟨rfl, rfl⟩
    | some t =>
      refine .inr ⟨t, rfl, ?_⟩
      cases hd : decodeWord iw with
      | ok i => exact .inl ⟨i, rfl, rfl⟩
      | error e => exact .inr ⟨e, rfl, rfl⟩

/-- A step that answers a next state is taken in RUNNING and halts, faults before dispatch, or executes the decoded
instruction after its cache access. -/
theorem step_next_cases {s u : State} (h : step s = .next u) :
    s.runState = .running
      ∧ ((s.pc = 0#32 ∧ u = s.halt)
        ∨ (s.pc ≠ 0#32 ∧ s.counters.total = s.params.stepLimit ∧ u = s.raise .nonTermination none none)
        ∨ (s.pc ≠ 0#32 ∧ s.counters.total ≠ s.params.stepLimit
            ∧ ((∃ c, s.fetch s.pc = .error c ∧ u = s.raise c none (some s.pc))
              ∨ (∃ iw t, s.fetch s.pc = .ok iw ∧ s.observe iw = some t
                  ∧ ((∃ e, decodeWord iw = .error e ∧ u = t.raise .decodeError (some iw) none)
                    ∨ (∃ i, decodeWord iw = .ok i ∧ exec i t = .next u)))))) := by
  unfold step State.frontEnd at h
  cases hr : s.runState with
  | running =>
    refine ⟨rfl, ?_⟩
    simp only [hr] at h
    rcases runningFrontEnd_cases s with ⟨h0, hf⟩ | ⟨h0, hb, hf⟩ | ⟨h0, hb, ⟨c, hc, hf⟩ | ⟨iw, hi, hf⟩⟩
    · rw [hf] at h; cases h; exact .inl ⟨h0, rfl⟩
    · rw [hf] at h; cases h; exact .inr (.inl ⟨h0, hb, rfl⟩)
    · rw [hf] at h; cases h; exact .inr (.inr ⟨h0, hb, .inl ⟨c, hc, rfl⟩⟩)
    · rcases hf with ⟨-, hf⟩ | ⟨t, ht, ⟨i, hd, hf⟩ | ⟨e, hd, hf⟩⟩
      · rw [hf] at h; cases h
      · rw [hf] at h; exact .inr (.inr ⟨h0, hb, .inr ⟨iw, t, hi, ht, .inr ⟨i, hd, h⟩⟩⟩)
      · rw [hf] at h; cases h; exact .inr (.inr ⟨h0, hb, .inr ⟨iw, t, hi, ht, .inl ⟨e, hd, rfl⟩⟩⟩)
  | idle => simp only [hr] at h; cases h
  | halted => simp only [hr] at h; cases h
  | faulted => simp only [hr] at h; cases h

end Sys2Proof.Machine
end

