-- ==== Sys2Proof/Tests/Slice0.lean ====
section
/-! SUPPORT. Tests of the model and witnesses of the statements' hypotheses. Words and expected results are those of
95_test_vectors.md (the section stands beside each) unless a comment works them out from the encoding. -/

namespace Sys2Proof.Tests

open Sys2Proof Sys2Proof.Machine

/-! ### Decoding: a word written out from 30_encoding.md for every row of the table -/

-- Section 2.2.
theorem test_decode_bx : decodeTableWord 32 0xE12FFF1E = some (.bx ⟨0xE#4, 14⟩) := by decide
theorem test_decode_mul : decodeTableWord 32 0xE0040094 = some (.mul ⟨0xE#4, 0#6, 4, 0, 0, 4#4⟩) := by decide
theorem test_decode_mul_imm8 : decodeTableWord 32 0xE2810090 = some (.mul ⟨0xE#4, 0x28#6, 1, 0, 0, 0#4⟩) := by decide
theorem test_decode_ldr :
    decodeTableWord 32 0xE5910004 = some (.ldr ⟨0xE#4, true, true, false, 1, 0, .imm 4#12⟩) := by decide
theorem test_decode_ldrb :
    decodeTableWord 32 0xE7D10002 = some (.ldrb ⟨0xE#4, true, true, false, 1, 0, .reg 0#8 2⟩) := by decide
-- 1110 01 0 1 1 0 0 0 1101 0001 000000000100: STR r1, [r13, #4] (program P4).
theorem test_decode_str :
    decodeTableWord 32 0xE58D1004 = some (.str ⟨0xE#4, true, true, false, 13, 1, .imm 4#12⟩) := by decide
-- 1110 01 0 1 1 1 0 0 0010 0000 000000000000: STRB r0, [r2] (program P3).
theorem test_decode_strb :
    decodeTableWord 32 0xE5C20000 = some (.strb ⟨0xE#4, true, true, false, 2, 0, .imm 0#12⟩) := by decide
-- Section 4.1.
theorem test_decode_add_imm :
    decodeTableWord 32 0xE2810F01 = some (.add ⟨0xE#4, false, 1, 0, .imm 0xF#4 1#8⟩) := by decide
theorem test_decode_add_reg :
    decodeTableWord 32 0xE0810102 = some (.add ⟨0xE#4, false, 1, 0, .reg 0x10#8 2⟩) := by decide
theorem test_decode_sub : decodeTableWord 32 0xE0432004 = some (.sub ⟨0xE#4, false, 3, 2, .reg 0#8 4⟩) := by decide
theorem test_decode_cmp : decodeTableWord 32 0xE3500005 = some (.cmp ⟨0xE#4, true, 0, 0, .imm 0#4 5#8⟩) := by decide
theorem test_decode_mov : decodeTableWord 32 0xE1A35006 = some (.mov ⟨0xE#4, false, 3, 5, .reg 0#8 6⟩) := by decide
-- Bits [24:21] of each word are the opcode of R77; the other fields are 0 but for the condition 1110.
theorem test_decode_and : decodeTableWord 32 0xE0000000 = some (.dpnopAnd ⟨0xE#4, false, 0, 0, .reg 0#8 0⟩) := by decide
theorem test_decode_eor : decodeTableWord 32 0xE0200000 = some (.dpnopEor ⟨0xE#4, false, 0, 0, .reg 0#8 0⟩) := by decide
theorem test_decode_rsb : decodeTableWord 32 0xE0600000 = some (.dpnopRsb ⟨0xE#4, false, 0, 0, .reg 0#8 0⟩) := by decide
theorem test_decode_adc : decodeTableWord 32 0xE0A00000 = some (.dpnopAdc ⟨0xE#4, false, 0, 0, .reg 0#8 0⟩) := by decide
theorem test_decode_sbc : decodeTableWord 32 0xE0C00000 = some (.dpnopSbc ⟨0xE#4, false, 0, 0, .reg 0#8 0⟩) := by decide
theorem test_decode_rsc : decodeTableWord 32 0xE0E00000 = some (.dpnopRsc ⟨0xE#4, false, 0, 0, .reg 0#8 0⟩) := by decide
theorem test_decode_tst : decodeTableWord 32 0xE1100000 = some (.dpnopTst ⟨0xE#4, true, 0, 0, .reg 0#8 0⟩) := by decide
theorem test_decode_teq : decodeTableWord 32 0xE320F000 = some (.dpnopTeq ⟨0xE#4, false, 0, 15, .imm 0#4 0#8⟩) := by decide
theorem test_decode_cmn : decodeTableWord 32 0xE1600000 = some (.dpnopCmn ⟨0xE#4, false, 0, 0, .reg 0#8 0⟩) := by decide
theorem test_decode_orr : decodeTableWord 32 0xE3800001 = some (.dpnopOrr ⟨0xE#4, false, 0, 0, .imm 0#4 1#8⟩) := by decide
theorem test_decode_bic : decodeTableWord 32 0xE1C100B0 = some (.dpnopBic ⟨0xE#4, false, 1, 0, .reg 0xB#8 0⟩) := by decide
theorem test_decode_mvn : decodeTableWord 32 0xE3E01000 = some (.dpnopMvn ⟨0xE#4, false, 0, 1, .imm 0#4 0#8⟩) := by decide
-- Section 4.5.
theorem test_decode_b : decodeTableWord 32 0x1AFFFFF9 = some (.b ⟨1#4, 0xFFFFF9#24⟩) := by decide
theorem test_decode_bl : decodeTableWord 32 0xCBFFFFFC = some (.bl ⟨0xC#4, 0xFFFFFC#24⟩) := by decide
-- Section 2.2: the words the hardware does not recognise.
theorem test_decode_refuses : decodeTableWord 32 0xE92D4000 = none ∧ decodeTableWord 32 0xEE000A10 = none
    ∧ decodeTableWord 32 0xFFFFFFFF = none := by decide
theorem test_decode_blx_is_no_bx : classify 0xE12FFF33#32 = .dp := by decide
theorem test_decode_truncated : decodeBytes .little [0#8, 0#8, 0#8] = .error .truncated := rfl

/-- The encoder writes the words back (one of each format). -/
theorem test_encode : encode (.bx ⟨0xE#4, 14⟩) = 0xE12FFF1E#32
    ∧ encode (.mul ⟨0xE#4, 0#6, 2, 4, 3, 5#4⟩) = 0xE0024395#32
    ∧ encode (.strb ⟨0xE#4, true, true, false, 2, 0, .imm 0#12⟩) = 0xE5C20000#32
    ∧ encode (.cmp ⟨0xE#4, true, 0, 0, .imm 0#4 5#8⟩) = 0xE3500005#32
    ∧ encode (.bl ⟨0#4, 2#24⟩) = 0x0B000002#32 := by decide

/-! ### WellFormed: an ill-formed term for each check, which the check refuses -/

theorem test_wf_refuses_mul_nibble_imm : Instr.wf (.add ⟨0xE#4, false, 1, 0, .imm 0#4 0x90#8⟩) = false := by decide
theorem test_wf_refuses_mul_nibble_reg : Instr.wf (.mov ⟨0xE#4, false, 1, 0, .reg 0x19#8 2⟩) = false := by decide
theorem test_wf_refuses_bx_pattern : Instr.wf (.dpnopTeq ⟨0xE#4, false, 15, 15, .reg 0xF1#8 14⟩) = false := by decide
theorem test_wf_refuses_overlap :
    Params.wf { Params.atReset with codeRegions := [⟨0x0020003C#32, 8⟩] } = false := by decide
theorem test_wf_refuses_region_past_space :
    Params.wf { Params.atReset with codeRegions := [⟨0xFFFFFFFC#32, 8⟩] } = false := by decide
theorem test_wf_refuses_no_budget : Params.wf { Params.atReset with stepLimit := 0 } = false := by decide

/-! ### One step on a small state -/

/-- One step from s, with the word placed where that step fetches. -/
def run (w : Nat) (s : State) : Result := step (s.withFetchWord 32 w)

/-- The answer is a next state of which p holds. -/
def goesOn (r : Result) (p : State → Bool) : Bool :=
  match r with
  | .next t => p t
  | .fault _ => false
  | .refused _ => false

/-- The fault record of the next state, if the answer is one. -/
def recordOf (r : Result) : Option FaultRecord :=
  match r with
  | .next t => t.record
  | .fault _ => none
  | .refused _ => none

/-- The reset state with two registers set. -/
def withRegs (a : Reg) (x : Word) (b : Reg) (y : Word) : State := (State.reset.setReg a x).setReg b y

-- Section 4.1.
theorem test_add_wraps : goesOn (run 0xE0810002 (withRegs 1 0xFFFFFFFF#32 2 1#32))
    (fun t => t.reg 0 == 0#32 && t.pc == 0x8004#32 && t.counters.dp == 1) = true := by decide
theorem test_add_to_pc : goesOn (run 0xE281F000 (withRegs 1 0x8010#32 2 0#32)) (fun t => t.pc == 0x8010#32) = true := by
  decide
theorem test_sub_wraps : goesOn (run 0xE0432004 (withRegs 3 3#32 4 5#32)) (fun t => t.reg 2 == 0xFFFFFFFE#32) = true := by
  decide
theorem test_sub_pc : goesOn (run 0xE24FF004 State.reset) (fun t => t.pc == 0x7FFC#32) = true := by decide
theorem test_mov_ignores_rn : goesOn (run 0xE1A35006 (withRegs 3 0x77#32 6 0xABCD#32))
    (fun t => t.reg 5 == 0xABCD#32) = true := by decide
theorem test_mov_reads_cur : goesOn (run 0xE1A0000F State.reset) (fun t => t.reg 0 == 0x8000#32) = true := by decide
theorem test_orr_does_nothing : goesOn (run 0xE3800001 (withRegs 0 0x10#32 1 0#32))
    (fun t => t.reg 0 == 0x10#32 && t.pc == 0x8004#32 && t.counters.total == 1) = true := by decide
theorem test_teq_field_15 :
    recordOf (run 0xE320F000 State.reset) = some ⟨.unpredictablePcField, 6, some 0x8000#32, some 0xE320F000#32, none⟩ := by
  decide
-- Section 4.2.
theorem test_cmp_lt : goesOn (run 0xE3500005 (withRegs 0 3#32 1 0#32)) (fun t => t.flags == 0xB0000000#32) = true := by
  decide
theorem test_cmp_overflow : cmpCode .wrap32 0x80000000#32 1#32 = codeGT ∧ cmpCode .exactSigned 0x80000000#32 1#32 = codeLT := by
  decide
-- Section 4.3.
theorem test_mul_field : goesOn (run 0xE0024395 (withRegs 2 6#32 3 7#32))
    (fun t => t.reg 2 == 42#32 && t.reg 4 == 0#32) = true := by decide
-- R113: 0x80000001 times 3 is 0x180000003.
theorem test_mul_low_bits : goesOn (run 0xE0024395 (withRegs 2 0x80000001#32 3 3#32))
    (fun t => t.reg 2 == 0x80000003#32) = true := by decide
-- Section 4.6: the load reads cur + 4; here r1 points at the placed word itself.
theorem test_ldr_reads_code : goesOn (run 0xE5910000 (withRegs 1 0x8000#32 2 0#32))
    (fun t => t.reg 0 == 0xE5910000#32 && t.counters.mem == 1) = true := by decide
theorem test_ldr_misaligned : recordOf (run 0xE5910000 (withRegs 1 2#32 2 0#32))
    = some ⟨.misalignedData, 3, some 0x8000#32, some 0xE5910000#32, some 2#32⟩ := by decide
-- R117: byte 1 of the placed word 0xE5D10001, zero-extended.
theorem test_ldrb_zero_extends : goesOn (run 0xE5D10002 (withRegs 1 0x8000#32 0 0xFFFFFFFF#32))
    (fun t => t.reg 0 == 0xD1#32) = true := by decide
-- Program P4: the first store below SP, and its variant at SP itself.
theorem test_str_bytes : goesOn (run 0xE58D0000 (withRegs 0 0x11223344#32 13 0x001003F8#32))
    (fun t => t.readByte 0x001003F8#32 == 0x44#8 && t.readByte 0x001003FB#32 == 0x11#8) = true := by decide
theorem test_str_past_stack : recordOf (run 0xE58D0000 State.reset)
    = some ⟨.outOfBounds, 2, some 0x8000#32, some 0xE58D0000#32, some 0x00100400#32⟩ := by decide
-- Program P3, case 1.
theorem test_strb_low_byte : goesOn (run 0xE5C20000 (withRegs 0 0x105#32 2 0x00200000#32))
    (fun t => t.readByte 0x00200000#32 == 5#8 && t.readByte 0x00200001#32 == 0#8) = true := by decide
-- Section 4.5.
theorem test_b_taken : goesOn (run 0x0A800000 State.reset)
    (fun t => t.pc == 0xFE008008#32 && t.counters.taken == 1) = true := by decide
theorem test_b_unknown : recordOf (run 0xEA000000 State.reset)
    = some ⟨.unknownCondition, 5, some 0x8000#32, some 0xEA000000#32, none⟩ := by decide
theorem test_bl_links : goesOn (run 0x0B000002 State.reset)
    (fun t => t.pc == 0x8010#32 && t.reg 14 == 0x8004#32) = true := by decide
theorem test_bl_not_taken : goesOn (run 0xCBFFFFFC (withRegs 14 0x1234#32 0 0#32))
    (fun t => t.pc == 0x8004#32 && t.reg 14 == 0x1234#32 && t.counters.nottaken == 1) = true := by decide
theorem test_bx_keeps_bit_0 : goesOn (run 0xE12FFF13 (withRegs 3 0x8011#32 0 0#32)) (fun t => t.pc == 0x8011#32) = true := by
  decide
-- Section 4.6: a word outside the table.
theorem test_unrecognized : recordOf (run 0xEF000000 State.reset)
    = some ⟨.decodeError, 1, some 0x8000#32, some 0xEF000000#32, none⟩ := by decide
-- Log 3: with nothing placed, the first step from reset finds no code region.
theorem test_reset_finds_no_code :
    recordOf (step State.reset) = some ⟨.outOfBounds, 2, some 0x8000#32, none, some 0x8000#32⟩ := by decide
-- Section 4.7.
theorem test_cache_keys : slotIndex 1024 0xE12FFF1E#32 = 967 ∧ cacheTag .full 1024 0xE12FFF1E#32 = 0x000E12FF#32
    ∧ cacheTag .reference 1024 0xE12FFF1E#32 = 0xB#32 := by decide

/-! ### Witnesses: a concrete state and operands meeting the hypotheses of each statement, clause by clause -/

/-- The example layout of section 1 with a code region of two words. -/
def layout : Params := { Params.atReset with codeRegions := [⟨0x8000#32, 8⟩] }

/-- The reset state in that layout. -/
def sample : State := { State.reset with params := layout }

/-- A data-processing instruction's fields with this destination: Rn = 0, operand 2 = #5. -/
def dpTo (rd : Reg) : DpFields := ⟨0xE#4, false, 0, rd, .imm 0#4 5#8⟩

/-- A load's or store's fields with this data register, at the address in r1. -/
def memTo (rd : Reg) : MemFields := ⟨0xE#4, true, true, false, 1, rd, .imm 0#12⟩

/-- A branch's fields with this condition, to itself. -/
def branchIf (cond : BitVec 4) : BranchFields := ⟨cond, 0xFFFFFE#24⟩

/-- The sample with r1 set. -/
def sampleAt (a : Word) : State := sample.setReg 1 a

/-- The sample with FLAGS set. -/
def sampleFlags (flags : Word) : State := { sample with flags := flags }

theorem witness_DecodeOfEncode : Instr.wf (.dpnopTeq ⟨0xF#4, true, 15, 15, .reg 0xFF#8 15⟩) = true
    ∧ Instr.wf (.dpnopTeq ⟨0#4, false, 15, 15, .imm 0xF#4 0x8F#8⟩) = true
    ∧ Instr.wf (.add ⟨0#4, false, 0, 0, .imm 0#4 0xA0#8⟩) = true := by decide
theorem witness_EncodeOfDecode : decodeTableWord 32 0 = some (.dpnopAnd ⟨0#4, false, 0, 0, .reg 0#8 0⟩)
    ∧ decodeTableWord 32 0x0BFFFFFF = some (.bl ⟨0#4, 0xFFFFFF#24⟩) := by decide
theorem witness_MapsSelect_dp : ∀ k : Fin 16, classify (BitVec.ofNat 32 (k.val * 2 ^ 21)) = .dp
    ∧ (BitVec.ofNat 32 (k.val * 2 ^ 21)).extractLsb' 21 4 = BitVec.ofNat 4 k.val := by decide
theorem witness_MapsSelect_mem : ∀ l b : Fin 2,
    classify (BitVec.ofNat 32 (2 ^ 26 + l.val * 2 ^ 20 + b.val * 2 ^ 22)) = .mem
    ∧ (BitVec.ofNat 32 (2 ^ 26 + l.val * 2 ^ 20 + b.val * 2 ^ 22)).getLsbD 20 = decide (l = 1)
    ∧ (BitVec.ofNat 32 (2 ^ 26 + l.val * 2 ^ 20 + b.val * 2 ^ 22)).getLsbD 22 = decide (b = 1) := by decide
theorem witness_MapsSelect_others : classify 0x0A000000#32 = .branch ∧ (0x0A000000#32).getLsbD 24 = false
    ∧ classify 0xFBFFFFFF#32 = .branch ∧ (0xFBFFFFFF#32).getLsbD 24 = true
    ∧ classify 0x012FFF10#32 = .bx ∧ classify 0x00000090#32 = .mul := by decide
theorem witness_OperandTwoForms : (0xE2810FFF#32).getLsbD 25 = true ∧ (0xE0810FFF#32).getLsbD 25 = false := by decide
theorem witness_EffectiveAddressForms : (0xE791000F#32).getLsbD 25 = true ∧ (0xE5910FFF#32).getLsbD 25 = false := by
  decide
theorem witness_WriteBackRule : (14 : Reg) ≠ pcReg ∧ (15 : Reg) = pcReg := by decide
theorem witness_StoredWordReadsBack : Memory.wf sample.mem = true ∧ sample.params.endian = .little
    ∧ Memory.wf [(0, 1#8), (0xFFFFFFFF, 2#8)] = true := by decide
theorem witness_StoredWordReadsBack_big : ({ layout with endian := .big } : Params).endian = .big := by decide
theorem witness_AddWritesTheSum : classify 0xE2810003#32 = .dp ∧ (0xE2810003#32).extractLsb' 21 4 = 0b0100#4
    ∧ (0xE2810090#32).extractLsb' 26 2 = 0b00#2 ∧ (0xE2810090#32).extractLsb' 4 4 = 0b1001#4 := by decide
theorem witness_SubWritesTheDifference :
    classify 0xE0432004#32 = .dp ∧ (0xE0432004#32).extractLsb' 21 4 = 0b0010#4 := by decide
theorem witness_MovWritesTheOperand :
    classify 0xE1A0F00E#32 = .dp ∧ (0xE1A0F00E#32).extractLsb' 21 4 = 0b1101#4 := by decide
theorem witness_haltsIfZero : goesOn (run 0xE3A0F000 State.reset)
    (fun t => t.runState == .running && t.pc == 0#32) = true := by decide
theorem witness_MulWritesTheLowProduct : sample.params.mulRdField = .bits19to16
    ∧ ({ layout with mulRdField := .bits15to12 } : Params).mulRdField = .bits15to12 := by decide
theorem witness_CmpWritesOnlyFlags : (dpTo 14).rd ≠ pcReg ∧ (dpTo 15).rd = pcReg := by decide
/-- The four boundaries of the signed range: the smallest and largest difference that fit, and one past each. -/
theorem witness_CmpModes :
    (0x80000000#32).toInt - (0#32).toInt = -2 ^ 31 ∧ (0x7FFFFFFF#32).toInt - (0#32).toInt = 2 ^ 31 - 1
    ∧ (0x80000000#32).toInt - (1#32).toInt = -2 ^ 31 - 1
    ∧ (0x7FFFFFFF#32).toInt - (0xFFFFFFFF#32).toInt = 2 ^ 31 := by decide
theorem witness_NoopOpcodesOnlyAdvance : (dpTo 0).rd ≠ pcReg ∧ (dpTo 14).rd ≠ pcReg ∧ (dpTo 15).rd = pcReg := by decide
theorem witness_OnlyCmpWritesFlags :
    goesOn (exec (.cmp (dpTo 0)) sample) (fun t => t.flags != sample.flags) = true := by decide

/-- Ignored bits that differ, beside an immediate and beside a register, and the default field of MUL. -/
theorem witness_IgnoredBitsDoNotExecute :
    sameReadOperand (.imm 0#4 5#8) (.imm 0xF#4 5#8) ∧ sameReadOperand (.reg 0#8 2) (.reg 0xFF#8 2)
    ∧ sameReadOffset (.imm 5#12) (.imm 5#12) ∧ sameReadOffset (.reg 0#8 2) (.reg 0xFF#8 2)
    ∧ sample.params.mulRdField = .bits19to16 := by simp only [sameReadOperand, sameReadOffset]; decide

/-- The last word of the buffer, one byte past its alignment, and the first word past the region; the same of the code. -/
theorem witness_LdrLoadsTheWord :
    (sampleAt 0x0020003C#32).effectiveAddress (memTo 0) = 0x0020003C#32
    ∧ multipleOf4 0x0020003C#32 ∧ admits layout .load 0x0020003C#32 4
    ∧ ¬ multipleOf4 0x0020003D#32
    ∧ multipleOf4 0x00200040#32 ∧ ¬ admits layout .load 0x00200040#32 4
    ∧ admits layout .load 0x8004#32 4 ∧ ¬ admits layout .load 0x8008#32 4 := by
  simp only [multipleOf4, admits, holdsBytes]; decide
theorem witness_LdrbLoadsTheByte :
    (sampleAt 0x0020003F#32).effectiveAddress (memTo 0) = 0x0020003F#32
    ∧ admits layout .load 0x0020003F#32 1 ∧ ¬ admits layout .load 0x00200040#32 1 := by
  simp only [admits, holdsBytes]; decide
/-- The stack's last word, the word past it, and a word of code, which no store may touch. -/
theorem witness_StrStoresTheWord :
    (memTo 14).rd ≠ pcReg ∧ (memTo 15).rd = pcReg
    ∧ (sampleAt 0x001003FC#32).effectiveAddress (memTo 14) = 0x001003FC#32
    ∧ multipleOf4 0x001003FC#32 ∧ admits layout .store 0x001003FC#32 4
    ∧ ¬ multipleOf4 0x001003FE#32
    ∧ multipleOf4 0x00100400#32 ∧ ¬ admits layout .store 0x00100400#32 4
    ∧ ¬ admits layout .store 0x8000#32 4 ∧ Memory.wf (sampleAt 0x001003FC#32).mem = true := by
  simp only [multipleOf4, admits, holdsBytes]; decide
theorem witness_StrbStoresTheByte :
    (memTo 14).rd ≠ pcReg ∧ (memTo 15).rd = pcReg
    ∧ (sampleAt 0x00100000#32).effectiveAddress (memTo 14) = 0x00100000#32
    ∧ admits layout .store 0x00100000#32 1 ∧ ¬ admits layout .store 0x000FFFFF#32 1
    ∧ ¬ admits layout .store 0x8000#32 1 := by simp only [admits, holdsBytes]; decide
theorem witness_StepsChangeOnlyStackAndBuffers : goesOn (run 0xE5C10000 (withRegs 0 7#32 1 0x0020003F#32))
    (fun t => t.readByte 0x0020003F#32 != State.reset.readByte 0x0020003F#32) = true := by decide
theorem witness_CodeNeverChanges : sample.params.wf = true ∧ (⟨0x8000#32, 8⟩ : Region) ∈ sample.params.codeRegions
    ∧ goesOn (step sample) (fun _ => true) = true := by decide

theorem witness_ConditionTable : recognisedCond 0xC#4 ∧ ¬ recognisedCond 0xD#4 ∧ ¬ recognisedCond 0xF#4
    ∧ ¬ recognisedCond 2#4 := by unfold recognisedCond; decide
/-- A branch to itself, the largest and the smallest displacement. -/
theorem witness_BranchOffsetRoundTrip :
    ((0x8000#32 - 0x8000#32 - 8#32).extractLsb' 0 2 = 0#2 ∧ (0x8000#32 - 0x8000#32 - 8#32).toInt = -8)
    ∧ ((0x02008004#32 - 0x8000#32 - 8#32).extractLsb' 0 2 = 0#2
      ∧ (0x02008004#32 - 0x8000#32 - 8#32).toInt = 2 ^ 25 - 4)
    ∧ ((0xFE008008#32 - 0x8000#32 - 8#32).extractLsb' 0 2 = 0#2
      ∧ (0xFE008008#32 - 0x8000#32 - 8#32).toInt = -2 ^ 25) := by decide
/-- Taken, not taken, and not taken by policy `NeverTaken`: for B and for BL. -/
theorem witness_BranchTakenOrNot :
    condHolds (branchIf 0#4).cond sample.condNibble
    ∧ condHolds (branchIf 1#4).cond (sampleFlags 0xC0000000#32).condNibble
    ∧ condFails sample (branchIf 1#4).cond
    ∧ condFails { sample with params := { layout with unknownCondPolicy := .neverTaken } } (branchIf 0xE#4).cond := by
  unfold condHolds condFails recognisedCond condHolds; decide
theorem witness_BranchAndLink :
    condHolds (branchIf 0xB#4).cond (sampleFlags 0xB0000000#32).condNibble
    ∧ condFails (sampleFlags 0xB0000000#32) (branchIf 0xC#4).cond := by
  unfold condHolds condFails recognisedCond condHolds; decide
theorem witness_UnknownConditions :
    ¬ recognisedCond (branchIf 0xE#4).cond ∧ sample.params.unknownCondPolicy = .fault := by
  unfold recognisedCond; decide
theorem witness_CompareThenBranch : (dpTo 0).rd ≠ pcReg
    ∧ goesOn (exec (.cmp (dpTo 0)) sample) (fun t => t.condNibble == codeLT) = true := by decide
theorem witness_BranchTargetsAligned : multipleOf4 sample.pc
    ∧ goesOn (exec (.b (branchIf 0#4)) sample) (fun _ => true) = true
    ∧ goesOn (exec (.bl (branchIf 0#4)) sample) (fun _ => true) = true := by
  simp only [multipleOf4]; decide

/-- A state that fetches, with a cache, at an instruction; the same at a word that spells none. -/
theorem witness_StepRunsTheDecodedInstruction :
    fetches sample ∧ sample.cache = some (Cache.fresh 8)
    ∧ decodeTableWord 32 (sample.readWord sample.pc).toNat = some (.dpnopAnd ⟨0#4, false, 0, 0, .reg 0#8 0⟩) := by
  simp only [fetches, multipleOf4, admits, holdsBytes]; decide
theorem witness_UnrecognizedWordFaults :
    fetches (State.reset.withFetchWord 32 0xEF000000)
    ∧ (State.reset.withFetchWord 32 0xEF000000).cache = some (Cache.fresh 8)
    ∧ classify ((State.reset.withFetchWord 32 0xEF000000).readWord 0x8000#32) = .unrecognized := by
  simp only [fetches, multipleOf4, admits, holdsBytes]; decide
theorem witness_HaltAtZero : (sample.setPc 0#32).runState = .running ∧ (sample.setPc 0#32).pc = 0#32 := by decide
/-- A spent budget; an unaligned PC; an aligned PC at the first word past the code. -/
theorem witness_FaultsBeforeDecode :
    sample.runState = .running ∧ sample.pc ≠ 0#32
    ∧ ({ sample with counters := { Counters.zero with total := 10000 } } : State).counters.total
      = sample.params.stepLimit
    ∧ sample.counters.total ≠ sample.params.stepLimit ∧ ¬ multipleOf4 (sample.setPc 0x8007#32).pc
    ∧ multipleOf4 (sample.setPc 0x8008#32).pc ∧ ¬ admits layout .fetch (sample.setPc 0x8008#32).pc 4 := by
  simp only [multipleOf4, admits, holdsBytes]; decide
theorem witness_OnlyRunningSteps : ({ sample with runState := .idle } : State).runState ≠ .running
    ∧ sample.halt.runState ≠ .running ∧ (sample.raise .decodeError none none).runState ≠ .running := by decide
theorem witness_FaultsArePrecise :
    goesOn (run 0xEA000000 State.reset) (fun t => t.runState == .faulted) = true := by decide
theorem witness_StepCountsOnceAndKeepsParameters :
    goesOn (step sample) (fun t => t.runState == .running) = true
    ∧ goesOn (step (sample.setPc 0#32)) (fun t => t.runState == .halted) = true := by decide
/-- With the whole budget left, and with none left. -/
theorem witness_EveryCallEnds : sample.runState = .running ∧ sample.cache ≠ none
    ∧ sample.counters.total ≤ sample.params.stepLimit
    ∧ ({ sample with counters := { Counters.zero with total := 10000 } } : State).counters.total
      ≤ sample.params.stepLimit := by decide
theorem witness_PlacedWordIsExecuted : Memory.wf (sample.setPc 0x8003#32).mem = true
    ∧ decodeTableWord 32 0xE2810003 = some (.add ⟨0xE#4, false, 1, 0, .imm 0#4 3#8⟩) := by decide

theorem witness_IndexAndTag : validCacheSize 8 = true ∧ validCacheSize 1024 = true ∧ validCacheSize 2048 = false := by
  decide
theorem witness_CacheSizes : 8 = 2 ^ 3 ∧ 1024 = 2 ^ 10 ∧ validCacheSize 4 = false ∧ validCacheSize 12 = false := by decide

/-- Key 0 in a fresh cache, then key 0 again (a hit), then key 32 (the same slot, another tag). -/
theorem witness_CacheAccessRule :
    ((Cache.fresh 8).slot (slotIndex 8 0#32)).valid = false
    ∧ (((Cache.fresh 8).access .full 0#32).slot (slotIndex 8 0#32)) = ⟨true, cacheTag .full 8 0#32⟩
    ∧ (((Cache.fresh 8).access .full 0#32).slot (slotIndex 8 32#32)).valid = true
    ∧ (((Cache.fresh 8).access .full 0#32).slot (slotIndex 8 32#32)).tag ≠ cacheTag .full 8 32#32
    ∧ ((Cache.fresh 8).access .full 0#32).slots.length = 8 := by decide
theorem witness_freshCacheOk : (Cache.fresh 8).ok := by unfold Cache.ok; decide
/-- The answer of a transaction is a state of which p holds. -/
def answers (r : HostAnswer) (p : State → Bool) : Bool :=
  match r with
  | .done t => p t
  | .configError _ _ => false
  | .rejected _ => false

/-- The sample with slot 0 of its cache written. -/
def sampleWarm : State := { sample with cache := some ((Cache.fresh 8).access .full 0#32) }

/-- A step, a start, a change of the parameters and a byte supplied, each from a state with a written slot
(a second construct is always rejected). -/
theorem witness_SlotsStayValid : (((Cache.fresh 8).access .full 0#32).slot 0).valid = true
    ∧ goesOn (step sampleWarm) (fun _ => true) = true
    ∧ answers (sampleWarm.halt.start 0x8000#32 []) (fun _ => true) = true
    ∧ answers (sampleWarm.halt.configure Params.atReset) (fun _ => true) = true
    ∧ answers (sampleWarm.halt.supplyByte 0x8007#32 1#8) (fun _ => true) = true := by decide
theorem witness_CacheIsOnlyAnObserver :
    agreeButCache sample { sample with cache := some ((Cache.fresh 1024).access .full 0#32) }
    ∧ goesOn (step sample) (fun _ => true) = true := by unfold agreeButCache; decide
/-- Both clauses: a step that stops alike where no cache is. -/
theorem witness_CacheIsOnlyAnObserver_stop : step { sample with cache := none } = .fault .noCache := rfl

theorem witness_ResetForCallRule : sample.params.stackBase.toNat ≤ (0x001003FF#32).toNat
    ∧ (0x001003FF#32).toNat < sample.params.stackBase.toNat + 1024
    ∧ (0x000FFFFF#32).toNat < sample.params.stackBase.toNat
    ∧ sample.params.stackBase.toNat + 1024 ≤ (0x00100400#32).toNat := by decide
theorem witness_StartBeginsACall : sample.halt.runState ≠ .running ∧ sample.halt.cache ≠ none
    ∧ sample.runState = .running ∧ ({ sample with cache := none } : State).cache = none := by decide
theorem witness_ConstructBuildsOrRefuses : ({ sample with cache := none } : State).cache = none
    ∧ answers (State.construct { sample with cache := none } 1024) (fun _ => true) = true
    ∧ answers (State.construct { sample with cache := none } 12) (fun _ => true) = false := by decide

/-- A block at power-on, its unspecified values all other than the reset values, the stack's first and last byte too. -/
def powerOn : State where
  regs := Vector.replicate 16 0xFFFFFFFF#32
  flags := 0xFFFFFFFF#32
  counters := { Counters.zero with total := 5 }
  runState := .idle
  record := some (faultRecord .decodeError none none none)
  cache := none
  mem := [(0x00100000, 1#8), (0x001003FF, 2#8)]
  params := Params.atReset

theorem witness_ResetFromAnyPowerOn : powerOn.isPowerOn = true ∧ powerOn.params = Params.atReset
    ∧ ∀ c ∈ powerOn.mem, powerOn.params.stackBase.toNat ≤ c.1 ∧ c.1 < powerOn.params.stackBase.toNat + 1024 := by decide
/-- R158: after a halt the host reads r13 and FLAGS; R210: at power-on it reads no register and
no stack byte, and R36: it reads the buffer's bytes. -/
theorem test_host_reads : (sample.setPc 0#32).halt.hostReg 13 = some 0x00100400#32
    ∧ (sampleFlags 0xB0000000#32).halt.hostFlags = some 0xB0000000#32 ∧ powerOn.hostReg 13 = none
    ∧ powerOn.hostByte 0x00100000#32 = none ∧ powerOn.hostByte 0x0020003F#32 = some 0#8
    ∧ sampleWarm.halt.hostSlot 0 = some (some 0#32) ∧ sampleWarm.halt.hostSlot 7 = some none := by decide
theorem witness_EntryZeroHalts : answers (sample.halt.start 0#32 [42#32]) (fun t => t.pc == 0#32) = true := by decide
theorem witness_StepKeepsTheInvariant : sample.Inv ∧ goesOn (step sample) (fun _ => true) = true :=
  ⟨{ memory := by decide
     flags := Or.inl (by decide)
     counters := by unfold Counters.ok; decide
     budget := by decide
     record := show sample.record = none by decide
     cache := fun c h => by cases h; exact witness_freshCacheOk }, by decide⟩
theorem witness_StartEstablishesTheInvariant : Memory.wf sample.halt.mem = true
    ∧ (∀ c, sample.halt.cache = some c → c.ok)
    ∧ answers (sample.halt.start 0x8000#32 []) (fun _ => true) = true :=
  ⟨by decide, fun c h => by cases h; exact witness_freshCacheOk, by decide⟩

end Sys2Proof.Tests
end

section
/-! SUPPORT AND PROOF. Every word that decodes is the encoding of what it decodes to (R33, R61 to R66; log 8): a word is
given by its fields, and the decoder keeps each field of a word's format. -/

namespace Sys2Proof

/-! ### Words given by their fields -/

/-- Two words that agree on two adjoining fields agree on the field the two make up. -/
theorem extract_join {a b : Word} {s l : Nat} (m : Nat) (hlow : a.extractLsb' s l = b.extractLsb' s l)
    (hhigh : a.extractLsb' (s + l) m = b.extractLsb' (s + l) m) :
    a.extractLsb' s (l + m) = b.extractLsb' s (l + m) := by
  apply BitVec.eq_of_getLsbD_eq
  intro i hi
  by_cases h : i < l
  · have bit := congrArg (·.getLsbD i) hlow
    simpa [h, hi] using bit
  · have bit := congrArg (·.getLsbD (i - l)) hhigh
    simpa [show i - l < m by omega, show s + l + (i - l) = s + i by omega, hi] using bit

/-- Two words that agree on all 32 bits are one word. -/
theorem eq_of_extract_all {a b : Word} (h : a.extractLsb' 0 32 = b.extractLsb' 0 32) : a = b := by
  simpa using h

/-! ### What the decoder keeps of the second operand and the offset -/

theorem operand2Of_bits (iw : Word) : (operand2Of iw).bits = iw.extractLsb' 0 12 := by
  unfold operand2Of
  dsimp only
  split
  · exact BitVec.extractLsb'_append_extractLsb'_eq_extractLsb' (start₂ := 8) (len₂ := 4) (start₁ := 0) (len₁ := 8) rfl
  · exact BitVec.extractLsb'_append_extractLsb'_eq_extractLsb' (start₂ := 4) (len₂ := 8) (start₁ := 0) (len₁ := 4) rfl

theorem operand2Of_iBit (iw : Word) : (operand2Of iw).iBit = bitField iw 25 := by
  unfold operand2Of
  dsimp only [fieldsOf]
  cases bitField iw 25 <;> rfl

theorem offsetOf_bits (iw : Word) : (offsetOf iw).bits = iw.extractLsb' 0 12 := by
  unfold offsetOf
  dsimp only
  split
  · exact BitVec.extractLsb'_append_extractLsb'_eq_extractLsb' (start₂ := 4) (len₂ := 8) (start₁ := 0) (len₁ := 4) rfl
  · rfl

theorem offsetOf_iBit (iw : Word) : (offsetOf iw).iBit = bitField iw 25 := by
  unfold offsetOf
  dsimp only [fieldsOf]
  cases bitField iw 25 <;> rfl

/-! ### Each format's word from its fields

In these proofs `agreeN` says that the encoder's word and the word decoded agree on their lowest N bits. -/

theorem encodeDp_dpFieldsOf {iw : Word} (h : iw.extractLsb' 26 2 = 0b00#2) :
    encodeDp (iw.extractLsb' 21 4) (dpFieldsOf iw) = iw := by
  have agree12 := (encodeDp_bits_0_12 (iw.extractLsb' 21 4) (dpFieldsOf iw)).trans (operand2Of_bits iw)
  have agree16 := extract_join 4 agree12 (encodeDp_bits_12_4 _ _)
  have agree20 := extract_join 4 agree16 (encodeDp_bits_16_4 _ _)
  have agree21 := extract_join 1 agree20 ((encodeDp_bits_20_1 _ _).trans (bitField_eq iw 20))
  have agree25 := extract_join 4 agree21 (encodeDp_bits_21_4 _ _)
  have agree26 := extract_join 1 agree25 ((encodeDp_bits_25_1 _ _).trans
    ((congrArg BitVec.ofBool (operand2Of_iBit iw)).trans (bitField_eq iw 25)))
  have agree28 := extract_join 2 agree26 ((encodeDp_bits_26_2 _ _).trans h.symm)
  exact eq_of_extract_all (extract_join 4 agree28 (encodeDp_bits_28_4 _ _))

theorem encodeMul_mulFieldsOf {iw : Word} (h : iw.extractLsb' 26 2 = 0b00#2) (hs : iw.extractLsb' 4 4 = 0b1001#4) :
    encodeMul (mulFieldsOf iw) = iw := by
  have agree4 := encodeMul_bits_0_4 (mulFieldsOf iw)
  have agree8 := extract_join 4 agree4 ((encodeMul_bits_4_4 _).trans hs.symm)
  have agree12 := extract_join 4 agree8 (encodeMul_bits_8_4 _)
  have agree16 := extract_join 4 agree12 (encodeMul_bits_12_4 _)
  have agree20 := extract_join 4 agree16 (encodeMul_bits_16_4 _)
  have agree26 := extract_join 6 agree20 (encodeMul_bits_20_6 _)
  have agree28 := extract_join 2 agree26 ((encodeMul_bits_26_2 _).trans h.symm)
  exact eq_of_extract_all (extract_join 4 agree28 (encodeMul_bits_28_4 _))

theorem encodeMem_memFieldsOf {iw : Word} (h : iw.extractLsb' 26 2 = 0b01#2) :
    encodeMem (bitField iw 20) (bitField iw 22) (memFieldsOf iw) = iw := by
  have agree12 := (encodeMem_bits_0_12 (bitField iw 20) (bitField iw 22) (memFieldsOf iw)).trans (offsetOf_bits iw)
  have agree16 := extract_join 4 agree12 (encodeMem_bits_12_4 _ _ _)
  have agree20 := extract_join 4 agree16 (encodeMem_bits_16_4 _ _ _)
  have agree21 := extract_join 1 agree20 ((encodeMem_bits_20_1 _ _ _).trans (bitField_eq iw 20))
  have agree22 := extract_join 1 agree21 ((encodeMem_bits_21_1 _ _ _).trans (bitField_eq iw 21))
  have agree23 := extract_join 1 agree22 ((encodeMem_bits_22_1 _ _ _).trans (bitField_eq iw 22))
  have agree24 := extract_join 1 agree23 ((encodeMem_bits_23_1 _ _ _).trans (bitField_eq iw 23))
  have agree25 := extract_join 1 agree24 ((encodeMem_bits_24_1 _ _ _).trans (bitField_eq iw 24))
  have agree26 := extract_join 1 agree25 ((encodeMem_bits_25_1 _ _ _).trans
    ((congrArg BitVec.ofBool (offsetOf_iBit iw)).trans (bitField_eq iw 25)))
  have agree28 := extract_join 2 agree26 ((encodeMem_bits_26_2 _ _ _).trans h.symm)
  exact eq_of_extract_all (extract_join 4 agree28 (encodeMem_bits_28_4 _ _ _))

theorem encodeBranch_branchFieldsOf {iw : Word} (h : iw.extractLsb' 25 3 = 0b101#3) :
    encodeBranch (bitField iw 24) (branchFieldsOf iw) = iw := by
  have agree24 := encodeBranch_bits_0_24 (bitField iw 24) (branchFieldsOf iw)
  have agree25 := extract_join 1 agree24 ((encodeBranch_bits_24_1 _ _).trans (bitField_eq iw 24))
  have agree28 := extract_join 3 agree25 ((encodeBranch_bits_25_3 _ _).trans h.symm)
  exact eq_of_extract_all (extract_join 4 agree28 (encodeBranch_bits_28_4 _ _))

theorem encodeBx_bxFieldsOf {iw : Word} (h : iw.extractLsb' 4 24 = 0x12FFF1#24) : encodeBx (bxFieldsOf iw) = iw := by
  have agree4 := encodeBx_bits_0_4 (bxFieldsOf iw)
  have agree28 := extract_join 24 agree4 ((encodeBx_bits_4_24 _).trans h.symm)
  exact eq_of_extract_all (extract_join 4 agree28 (encodeBx_bits_28_4 _))

/-! ### The bits of each class -/

/-- What R74's tests say of a word of each class. -/
def classBits (iw : Word) : WordClass → Prop
  | .bx => iw.extractLsb' 4 24 = 0x12FFF1#24
  | .mul => iw.extractLsb' 26 2 = 0b00#2 ∧ iw.extractLsb' 4 4 = 0b1001#4
  | .mem => iw.extractLsb' 26 2 = 0b01#2
  | .dp => iw.extractLsb' 26 2 = 0b00#2 ∧ iw.extractLsb' 4 4 ≠ 0b1001#4 ∧ iw.extractLsb' 4 24 ≠ 0x12FFF1#24
  | .branch => iw.extractLsb' 25 3 = 0b101#3
  | .unrecognized => True

/-- A word's class tells its bits (R74). -/
theorem classBits_classify (iw : Word) : classBits iw (classify iw) := by
  unfold classify
  split
  case isTrue hbx => exact hbx
  split
  case isTrue _ hmul => exact hmul
  split
  case isTrue _ _ hmem => exact hmem
  split
  case isTrue hbx hmul _ hdp => exact ⟨hdp, fun hs => hmul ⟨hdp, hs⟩, hbx⟩
  split
  case isTrue hbranch => exact hbranch
  case isFalse => trivial

/-! ### The instruction a word's class and selecting bits give -/

theorem encode_dpInstr (opcode : BitVec 4) (f : DpFields) : encode (dpInstr opcode f) = encodeDp opcode f := by
  have cases16 : opcode = 0#4 ∨ opcode = 1#4 ∨ opcode = 2#4 ∨ opcode = 3#4 ∨ opcode = 4#4 ∨ opcode = 5#4
      ∨ opcode = 6#4 ∨ opcode = 7#4 ∨ opcode = 8#4 ∨ opcode = 9#4 ∨ opcode = 10#4 ∨ opcode = 11#4 ∨ opcode = 12#4
      ∨ opcode = 13#4 ∨ opcode = 14#4 ∨ opcode = 15#4 := by
    revert opcode; decide
  rcases cases16 with rfl | rfl | rfl | rfl | rfl | rfl | rfl | rfl | rfl | rfl | rfl | rfl | rfl | rfl | rfl | rfl <;> rfl

theorem encode_memInstr (l b : Bool) (f : MemFields) : encode (memInstr l b f) = encodeMem l b f := by
  cases l <;> cases b <;> rfl

theorem encode_branchInstr (link : Bool) (f : BranchFields) : encode (branchInstr link f) = encodeBranch link f := by
  cases link <;> rfl

theorem wf_memInstr (l b : Bool) (f : MemFields) : (memInstr l b f).wf = true := by
  cases l <;> cases b <;> rfl

theorem wf_branchInstr (link : Bool) (f : BranchFields) : (branchInstr link f).wf = true := by
  cases link <;> rfl

/-- A data-processing instruction is well formed when its operand spells no MUL and, for opcode 1001 (TEQ), its fields
spell no BX. -/
theorem wf_dpInstr {opcode : BitVec 4} {f : DpFields} (hm : f.op2.notMul = true)
    (hbx : opcode = 0b1001#4 → f.isBxPattern = false) : (dpInstr opcode f).wf = true := by
  by_cases hop : opcode = 0b1001#4
  · subst hop
    show (f.op2.notMul && !f.isBxPattern) = true
    simp [hm, hbx rfl]
  · unfold dpInstr
    split
    case h_10 => exact absurd rfl hop
    all_goals exact hm

/-! ### Well-formedness of what a data-processing word decodes to -/

theorem op2_notMul_of_bits {o : Operand2} (h : o.bits.extractLsb' 4 4 ≠ 0b1001#4) : o.notMul = true := by
  cases o with
  | imm ign imm8 =>
    have bits : (ign ++ imm8).extractLsb' 4 4 = imm8.extractLsb' 4 4 :=
      BitVec.extractLsb'_append_eq_of_add_le (by omega)
    simpa [Operand2.notMul, Operand2.bits, bits] using h
  | reg ign rm =>
    have bits : (ign ++ bitsOfReg rm).extractLsb' 4 4 = ign.extractLsb' 0 4 :=
      BitVec.extractLsb'_append_eq_of_le (by omega)
    simpa [Operand2.notMul, Operand2.bits, bits] using h

/-- Fields that spell the BX pattern make, with opcode 1001, a word with the BX bits: the converse of
`isBxPattern_of_bits`. -/
theorem bits_of_isBxPattern {f : DpFields} (h : f.isBxPattern = true) :
    (encodeDp 0b1001#4 f).extractLsb' 4 24 = 0x12FFF1#24 := by
  obtain ⟨cond, s, rn, rd, op2⟩ := f
  cases op2 with
  | imm ign imm8 => exact absurd h Bool.false_ne_true
  | reg ign rm =>
    simp only [DpFields.isBxPattern, Bool.and_eq_true, Bool.not_eq_true', beq_iff_eq] at h
    obtain ⟨⟨⟨rfl, rfl⟩, rfl⟩, rfl⟩ := h
    have agree12 : (encodeDp 0b1001#4 ⟨cond, false, 15, 15, .reg 0b11110001#8 rm⟩).extractLsb' 4 8
        = (0x012FFF10#32).extractLsb' 4 8 := by
      rw [← extract_extract (s := 0) (l := 12) (s' := 4) _ (by omega), encodeDp_bits_0_12]
      exact BitVec.extractLsb'_append_eq_of_le (by omega)
    have agree16 := extract_join 4 agree12 (encodeDp_bits_12_4 _ _)
    have agree20 := extract_join 4 agree16 (encodeDp_bits_16_4 _ _)
    have agree21 := extract_join 1 agree20 (encodeDp_bits_20_1 _ _)
    have agree25 := extract_join 4 agree21 (encodeDp_bits_21_4 _ _)
    have agree26 := extract_join 1 agree25 (encodeDp_bits_25_1 _ _)
    exact extract_join 2 agree26 (encodeDp_bits_26_2 _ _)

theorem wf_of_dp_bits {iw : Word} (h : iw.extractLsb' 26 2 = 0b00#2) (hmul : iw.extractLsb' 4 4 ≠ 0b1001#4)
    (hbx : iw.extractLsb' 4 24 ≠ 0x12FFF1#24) : (dpInstr (iw.extractLsb' 21 4) (dpFieldsOf iw)).wf = true := by
  have whole := encodeDp_dpFieldsOf h
  refine wf_dpInstr (op2_notMul_of_bits ?_) fun hop => Bool.eq_false_iff.mpr fun hpat => hbx ?_
  · show (operand2Of iw).bits.extractLsb' 4 4 ≠ 0b1001#4
    rwa [operand2Of_bits, extract_extract _ (by omega)]
  · rw [hop] at whole
    rw [← whole]
    exact bits_of_isBxPattern hpat

/-- Settles O2, by the class of the word. -/
theorem encodeOfDecode : Obligations.EncodeOfDecode := by
  intro iw i h
  have bits := classBits_classify iw
  unfold decodeWord at h
  cases hc : classify iw <;> rw [hc] at h bits <;> cases h
  case bx => exact ⟨rfl, encodeBx_bxFieldsOf bits⟩
  case mul =>
    obtain ⟨hop, hs⟩ := bits
    exact ⟨rfl, encodeMul_mulFieldsOf hop hs⟩
  case mem => exact ⟨wf_memInstr _ _ _, (encode_memInstr _ _ _).trans (encodeMem_memFieldsOf bits)⟩
  case dp =>
    obtain ⟨hop, hmul, hbx⟩ := bits
    exact ⟨wf_of_dp_bits hop hmul hbx, (encode_dpInstr _ _).trans (encodeDp_dpFieldsOf hop)⟩
  case branch => exact ⟨wf_branchInstr _ _, (encode_branchInstr _ _).trans (encodeBranch_branchFieldsOf bits)⟩

end Sys2Proof
end

section
/-! SUPPORT AND PROOF. What a step keeps: the cases of a step by what they leave of the state, and from them the
invariant of a run, the precision of faults and the counting of instructions. -/

namespace Sys2Proof.Machine

/-! ### The cache -/

/-- A tag has at most `30 - log2(N)` bits under either `TAG_MODE` (R170, R174). -/
theorem cacheTag_lt (mode : TagMode) {n : Nat} (h : validCacheSize n = true) (key : Word) :
    (cacheTag mode n key).toNat < 2 ^ (30 - cacheLog2 n) := by
  have hlog : cacheLog2 n ≤ 30 := by
    rcases (validCacheSize_iff n).mp h with rfl | rfl | rfl | rfl | rfl | rfl | rfl | rfl <;> decide
  have full : (key >>> (2 + cacheLog2 n)).toNat < 2 ^ (30 - cacheLog2 n) := by
    rw [BitVec.toNat_ushiftRight, Nat.shiftRight_eq_div_pow]
    refine Nat.div_lt_of_lt_mul ?_
    rw [← Nat.pow_add, show 2 + cacheLog2 n + (30 - cacheLog2 n) = 32 by omega]
    exact key.isLt
  cases mode with
  | full => exact full
  | reference =>
    unfold cacheTag
    rw [BitVec.toNat_and]
    exact lt_of_le_of_lt Nat.and_le_left full

theorem Cache.ok_recordHit {c : Cache} (h : c.ok) : c.recordHit.ok := by
  obtain ⟨hsize, hlen, htags, hsum⟩ := h
  refine ⟨hsize, hlen, htags, ?_⟩
  simp only [recordHit_hits, recordHit_misses, recordHit_requests]
  omega

theorem Cache.ok_recordMiss {c : Cache} (h : c.ok) (i : Nat) {t : Word} (ht : t.toNat < 2 ^ (30 - cacheLog2 c.size)) :
    (c.recordMiss i t).ok := by
  obtain ⟨hsize, hlen, htags, hsum⟩ := h
  refine ⟨hsize, by simpa using hlen, fun x hx hv => ?_, ?_⟩
  · rcases List.mem_or_eq_of_mem_set hx with hold | rfl
    · exact htags x hold hv
    · exact ht
  · simp only [recordMiss_hits, recordMiss_misses, recordMiss_requests]
    omega

/-- An access keeps a cache well formed, hit or miss (R175, R178). -/
theorem Cache.ok_access {c : Cache} (h : c.ok) (mode : TagMode) (key : Word) : (c.access mode key).ok := by
  rcases c.access_cases mode key with ⟨-, -, hit⟩ | ⟨-, miss⟩
  · rw [hit]
    exact ok_recordHit h
  · rw [miss]
    obtain ⟨hsize, -⟩ := id h
    exact ok_recordMiss h _ (cacheTag_lt mode hsize key)

/-! ### Counters and flags -/

@[simp] theorem Counters.count_total (c : Counters) (k : Retired) : (c.count k).total = c.total + 1 := by
  cases k <;> rfl

/-- Counting an instruction keeps the sums of R30. -/
theorem Counters.ok_count {c : Counters} (h : c.ok) (k : Retired) : (c.count k).ok := by
  obtain ⟨htotal, hbr⟩ := h
  cases k <;> simp only [Counters.ok, Counters.count] <;> omega

/-- The flags words a comparison can write are the legal ones (R25, R94). -/
theorem flagsOf_cmpCode (mode : CmpMode) (a b : Word) :
    flagsOf (cmpCode mode a b) = flagsOf codeEQ ∨ flagsOf (cmpCode mode a b) = flagsOf codeLT
      ∨ flagsOf (cmpCode mode a b) = flagsOf codeGT := by
  rcases cmpCode_cases mode a b with ⟨-, h⟩ | ⟨-, h⟩ | ⟨-, h⟩ <;> simp [h]

/-! ### An instruction faults or completes -/

/-- What every completed instruction leaves: it counted once, FLAGS are as before or a comparison's, memory is still in
its canonical form, and the run state, the record, the cache and the parameters are as before. -/
structure Completes (s t : State) : Prop where
  control : sameControl s t
  counted : ∃ k, countedAs k s t
  flags : t.flags = s.flags ∨ ∃ a b, t.flags = flagsOf (cmpCode s.params.cmpMode a b)
  memory : Memory.wf s.mem = true → Memory.wf t.mem = true

/-- What retires with FLAGS and memory as before completes. -/
theorem completes_retire {s t : State} (k : Retired) (hc : sameControl s t) (hn : t.counters = s.counters)
    (hf : t.flags = s.flags) (hm : Memory.wf s.mem = true → Memory.wf t.mem = true) : Completes s (t.retire k) where
  control := hc
  counted := ⟨k, by simp [countedAs, hn]⟩
  flags := .inl hf
  memory := hm

/-- An instruction faults, with a cause that is not `ConfigError`, or completes. -/
theorem Effect.faults_or_completes {s t : State} (h : Effect s t) :
    (∃ c w a, c ≠ .configError ∧ t = s.raise c w a) ∨ Completes s t := by
  cases h with
  | fault c w a hc => exact .inl ⟨c, w, a, by rintro rfl; simp at hc, rfl⟩
  | write d v k =>
    exact .inr (completes_retire k ⟨by simp, by simp, by simp, by simp⟩ (by simp) (by simp) (by simp))
  | compare a b =>
    exact .inr ⟨⟨rfl, rfl, rfl, rfl⟩, ⟨.dp, rfl⟩, .inr ⟨a, b, rfl⟩, id⟩
  | noop => exact .inr (completes_retire .dp ⟨rfl, rfl, rfl, rfl⟩ rfl rfl id)
  | storeWord ea v =>
    exact .inr (completes_retire .mem ⟨rfl, rfl, rfl, rfl⟩ rfl rfl fun hw => wf_writeWord hw ea v)
  | storeByte ea v =>
    exact .inr (completes_retire .mem ⟨rfl, rfl, rfl, rfl⟩ rfl rfl fun hw => wf_writeByte hw ea v)
  | jump v => exact .inr (completes_retire .brTaken ⟨rfl, rfl, rfl, rfl⟩ rfl rfl id)
  | link v => exact .inr (completes_retire .brTaken ⟨rfl, rfl, rfl, rfl⟩ rfl rfl id)
  | notTaken => exact .inr (completes_retire .brNotTaken ⟨rfl, rfl, rfl, rfl⟩ rfl rfl id)

/-! ### A step halts, faults or completes -/

/-- The state a step works on once the sequencer is done: the one it began in, with at most one cache access made. -/
inductive Sequenced (s : State) : State → Prop where
  | untouched : Sequenced s s
  | accessed (c : Cache) (key : Word) (hc : s.cache = some c) :
      Sequenced s { s with cache := some (c.access s.params.tagMode key) }

theorem sequenced_of_observe {s t : State} {iw : Word} (h : s.observe iw = some t) : Sequenced s t := by
  obtain ⟨c, hc, rfl⟩ := observe_spec h
  exact .accessed c _ hc

/-- A step that answers a next state is taken in RUNNING and halts, faults with a cause that is not `ConfigError`, or
completes an instruction within the budget (R151, R152, R163, R195). -/
theorem step_halts_faults_or_completes {s u : State} (h : step s = .next u) :
    s.runState = .running
      ∧ (u = s.halt
        ∨ (∃ t c w a, Sequenced s t ∧ c ≠ .configError ∧ u = t.raise c w a)
        ∨ (∃ t, Sequenced s t ∧ s.counters.total ≠ s.params.stepLimit ∧ Completes t u)) := by
  obtain ⟨hrun, hcases⟩ := step_next_cases h
  refine ⟨hrun, ?_⟩
  rcases hcases with ⟨-, rfl⟩ | ⟨-, -, rfl⟩ | ⟨-, hb, ⟨c, hf, rfl⟩ | ⟨iw, t, -, ho, ⟨e, -, rfl⟩ | ⟨i, -, hx⟩⟩⟩
  · exact .inl rfl
  · exact .inr (.inl ⟨s, _, _, _, .untouched, by decide, rfl⟩)
  · refine .inr (.inl ⟨s, c, _, _, .untouched, ?_, rfl⟩)
    rcases (fetch_eq_error s).mp hf with ⟨-, rfl⟩ | ⟨-, -, rfl⟩ <;> decide
  · exact .inr (.inl ⟨t, _, _, _, sequenced_of_observe ho, by decide, rfl⟩)
  · rcases (effect_of_exec hx).faults_or_completes with ⟨c, w, a, hc, rfl⟩ | hdone
    · exact .inr (.inl ⟨t, c, w, a, sequenced_of_observe ho, hc, rfl⟩)
    · exact .inr (.inr ⟨t, sequenced_of_observe ho, hb, hdone⟩)

/-! ### The invariant of a run -/

/-- Outside FAULTED the invariant's record is absent (R33). -/
theorem State.recordOk_iff_of_ne_faulted {s : State} (h : s.runState ≠ .faulted) : s.recordOk ↔ s.record = none := by
  unfold State.recordOk
  split
  · exact absurd ‹_› h
  · rfl

theorem Sequenced.inv {s t : State} (h : Sequenced s t) (hi : s.Inv) : t.Inv := by
  cases h with
  | untouched => exact hi
  | accessed c key hc =>
    exact { hi with cache := fun c' hc' => by cases hc'; exact Cache.ok_access (hi.cache c hc) _ _ }

theorem inv_halt {s : State} (hi : s.Inv) (hrun : s.runState = .running) : s.halt.Inv :=
  have hne : s.runState ≠ .faulted := by simp [hrun]
  { hi with record := show s.record = none from (State.recordOk_iff_of_ne_faulted hne).mp hi.record }

theorem inv_raise {s : State} (hi : s.Inv) (c : Cause) (w a : Option Word) : (s.raise c w a).Inv :=
  { hi with record := ⟨_, rfl, rfl, rfl⟩ }

/-- A completed instruction keeps the invariant, when the budget was not spent (R152). -/
theorem Completes.inv {s t : State} (h : Completes s t) (hi : s.Inv) (hrun : s.runState = .running)
    (hb : s.counters.total ≠ s.params.stepLimit) : t.Inv := by
  obtain ⟨⟨hstate, hrecord, hcache, hparams⟩, ⟨k, hcount⟩, hflags, hmem⟩ := h
  have hnone := (State.recordOk_iff_of_ne_faulted (by simp [hrun])).mp hi.record
  exact {
    memory := hmem hi.memory
    flags := by
      rcases hflags with hsame | ⟨a, b, hcmp⟩
      · unfold State.flagsOk; rw [hsame]; exact hi.flags
      · unfold State.flagsOk; rw [hcmp]; exact flagsOf_cmpCode _ a b
    counters := by rw [hcount]; exact Counters.ok_count hi.counters k
    budget := by
      have := hi.budget
      rw [hcount, hparams, Counters.count_total]
      omega
    record := (State.recordOk_iff_of_ne_faulted (by simp [hstate, hrun])).mpr (hrecord.trans hnone)
    cache := by rw [hcache]; exact hi.cache }

/-- Settles O58, by the three ways a step can end. -/
theorem stepKeepsTheInvariant : Obligations.StepKeepsTheInvariant := by
  intro s u hi h
  obtain ⟨hrun, rfl | ⟨t, c, w, a, ht, -, rfl⟩ | ⟨t, ht, hb, hdone⟩⟩ := step_halts_faults_or_completes h
  · exact inv_halt hi hrun
  · exact inv_raise (ht.inv hi) c w a
  · exact hdone.inv (ht.inv hi) (by cases ht <;> exact hrun) (by cases ht <;> exact hb)

/-! ### Faults and counts -/

/-- Once a call has ended the host reads all of the state (R36, R158, R198). -/
theorem hostReadsAll_of_ended {s : State} (h : s.runState = .halted ∨ s.runState = .faulted) : hostReadsAll s := by
  have hread : ∀ {α : Type} (x : Option α), s.afterCall x = x := fun x => by rw [afterCall_eq, if_pos h]
  have hstop : s.runState ≠ .running := by rcases h with h | h <;> simp [h]
  refine ⟨fun r => hread _, hread _, if_neg hstop, fun a ha => ?_, fun c hc => ⟨?_, fun i hi => ?_⟩⟩
  · have had := (admitted_iff s.params .load a Nat.one_pos).mpr ha
    unfold State.hostByte
    rcases h with h | h <;> simp [h, had]
  · simp [State.hostCacheStats, hstop, hc]
  · unfold State.hostSlot
    rw [hread]
    simp [hc, hi, Cache.slot]

/-- The causes of a step's faults, under their codes (R186). -/
theorem stepCause_mem {c : Cause} (h : c ≠ .configError) :
    (c, c.code) ∈ [(Cause.decodeError, 1), (.outOfBounds, 2), (.misalignedData, 3), (.misalignedFetch, 4),
      (.unknownCondition, 5), (.unpredictablePcField, 6), (.nonTermination, 7)] := by
  revert h; cases c <;> decide

/-- Settles O43: of a step's three ways to end only the fault ends FAULTED. -/
theorem faultsArePrecise : Obligations.FaultsArePrecise := by
  intro s u h hfaulted
  obtain ⟨hrun, rfl | ⟨t, c, w, a, ht, hc, rfl⟩ | ⟨t, ht, -, hdone⟩⟩ := step_halts_faults_or_completes h
  · cases hfaulted
  · have hall := hostReadsAll_of_ended (.inr hfaulted)
    cases ht <;> exact ⟨rfl, rfl, rfl, rfl, rfl, hall, _, rfl, rfl, rfl, stepCause_mem hc⟩
  · have hsame : t.runState = s.runState := by cases ht <;> rfl
    obtain ⟨hstate, -⟩ := hdone.control
    rw [hstate, hsame, hrun] at hfaulted
    cases hfaulted

/-- Settles O44: of a step's three ways to end only the completed instruction stays in RUNNING, and only it counts. -/
theorem stepCountsOnceAndKeepsParameters : Obligations.StepCountsOnceAndKeepsParameters := by
  intro s u h
  obtain ⟨hrun, rfl | ⟨t, c, w, a, ht, -, rfl⟩ | ⟨t, ht, -, hdone⟩⟩ := step_halts_faults_or_completes h
  · exact ⟨rfl, nofun, fun _ => rfl⟩
  · cases ht <;> exact ⟨rfl, nofun, fun _ => rfl⟩
  · obtain ⟨hstate, -, -, hparams⟩ := hdone.control
    obtain ⟨k, hcount⟩ := hdone.counted
    have hsame : t.params = s.params ∧ t.counters = s.counters ∧ t.runState = s.runState := by
      cases ht <;> exact ⟨rfl, rfl, rfl⟩
    obtain ⟨hp, hn, hr⟩ := hsame
    rw [countedAs, hn] at hcount
    refine ⟨hparams.trans hp, fun _ => ⟨by rw [hcount, Counters.count_total], k, hcount⟩, fun hne => ?_⟩
    exact absurd (hstate.trans (hr.trans hrun)) hne

end Sys2Proof.Machine
end

section
/-! SUPPORT AND PROOF. No instruction but CMP writes FLAGS (R26; O21): each shared part of a meaning keeps them. -/

namespace Sys2Proof.Machine

/-- Every next state the result answers has the FLAGS of s. -/
def keepsFlags (s : State) (r : Result) : Prop := ∀ t, r = .next t → t.flags = s.flags

theorem keepsFlags_next {s t : State} (h : t.flags = s.flags) : keepsFlags s (.next t) := by
  rintro _ ⟨⟩; exact h

theorem keepsFlags_guardPcField (i : Instr) (rd : Reg) {s : State} {go : Result} (h : keepsFlags s go) :
    keepsFlags s (guardPcField i rd s go) := by
  rcases guardPcField_cases i rd s go with ⟨-, e⟩ | ⟨-, e⟩ <;> rw [e]
  · exact keepsFlags_next rfl
  · exact h

theorem keepsFlags_guardAligned (i : Instr) (ea : Word) {s : State} {go : Result} (h : keepsFlags s go) :
    keepsFlags s (guardAligned i ea s go) := by
  rcases guardAligned_cases i ea s go with ⟨-, e⟩ | ⟨-, e⟩ <;> rw [e]
  · exact keepsFlags_next rfl
  · exact h

theorem keepsFlags_guardAdmitted (i : Instr) (k : Access) (ea : Word) (n : Nat) {s : State} {go : Result}
    (h : keepsFlags s go) : keepsFlags s (guardAdmitted i k ea n s go) := by
  rcases guardAdmitted_cases i k ea n s go with ⟨-, e⟩ | ⟨-, e⟩ <;> rw [e]
  · exact keepsFlags_next rfl
  · exact h

theorem keepsFlags_branchOn (i : Instr) (cond : BitVec 4) {s t : State} (h : t.flags = s.flags) :
    keepsFlags s (branchOn i cond s t) := by
  rcases branchOn_cases i cond s t with ⟨-, e⟩ | ⟨-, e⟩ | ⟨-, e⟩ <;> rw [e]
  · exact keepsFlags_next h
  · exact keepsFlags_next rfl
  · exact keepsFlags_next rfl

theorem keepsFlags_writeBack (s : State) (d : Reg) (v : Word) (k : Retired) :
    keepsFlags s (.next ((s.writeBack d v).retire k)) :=
  keepsFlags_next (by simp)

theorem keepsFlags_dpNoop (i : Instr) (f : DpFields) (s : State) : keepsFlags s (dpNoop i f s) :=
  keepsFlags_guardPcField i f.rd (keepsFlags_next rfl)

/-- An instruction is a CMP or leaves FLAGS as they were (R26). -/
theorem exec_keepsFlags (i : Instr) (s : State) : (∃ f, i = .cmp f) ∨ keepsFlags s (exec i s) := by
  cases i with
  | cmp f => exact .inl ⟨f, rfl⟩
  | bx f => exact .inr (keepsFlags_next rfl)
  | mul f => exact .inr (keepsFlags_writeBack s _ _ _)
  | ldr f =>
    exact .inr (keepsFlags_guardAligned _ _ (keepsFlags_guardAdmitted _ _ _ _ (keepsFlags_writeBack s _ _ _)))
  | ldrb f => exact .inr (keepsFlags_guardAdmitted _ _ _ _ (keepsFlags_writeBack s _ _ _))
  | str f =>
    exact .inr (keepsFlags_guardPcField _ _
      (keepsFlags_guardAligned _ _ (keepsFlags_guardAdmitted _ _ _ _ (keepsFlags_next rfl))))
  | strb f => exact .inr (keepsFlags_guardPcField _ _ (keepsFlags_guardAdmitted _ _ _ _ (keepsFlags_next rfl)))
  | add f => exact .inr (keepsFlags_writeBack s _ _ _)
  | sub f => exact .inr (keepsFlags_writeBack s _ _ _)
  | mov f => exact .inr (keepsFlags_writeBack s _ _ _)
  | b f => exact .inr (keepsFlags_branchOn _ _ rfl)
  | bl f => exact .inr (keepsFlags_branchOn _ _ rfl)
  | dpnopAnd f => exact .inr (keepsFlags_dpNoop _ f s)
  | dpnopEor f => exact .inr (keepsFlags_dpNoop _ f s)
  | dpnopRsb f => exact .inr (keepsFlags_dpNoop _ f s)
  | dpnopAdc f => exact .inr (keepsFlags_dpNoop _ f s)
  | dpnopSbc f => exact .inr (keepsFlags_dpNoop _ f s)
  | dpnopRsc f => exact .inr (keepsFlags_dpNoop _ f s)
  | dpnopTst f => exact .inr (keepsFlags_dpNoop _ f s)
  | dpnopTeq f => exact .inr (keepsFlags_dpNoop _ f s)
  | dpnopCmn f => exact .inr (keepsFlags_dpNoop _ f s)
  | dpnopOrr f => exact .inr (keepsFlags_dpNoop _ f s)
  | dpnopBic f => exact .inr (keepsFlags_dpNoop _ f s)
  | dpnopMvn f => exact .inr (keepsFlags_dpNoop _ f s)

/-- Settles O21, by the instruction's constructor. -/
theorem onlyCmpWritesFlags : Obligations.OnlyCmpWritesFlags := by
  intro i s t h hne
  rcases exec_keepsFlags i s with hcmp | hkeeps
  · exact hcmp
  · exact absurd (hkeeps t h) hne

end Sys2Proof.Machine
end

section
/-! SUPPORT AND PROOF. The host's `construct` (R35, R181; O55) and `Retire` (R157; O11). -/

namespace Sys2Proof.Machine

/-- The admitted sizes are the powers of two from 2^3 to 2^10 (R170, R181). -/
theorem validCacheSize_iff_pow (n : Nat) : validCacheSize n = true ↔ ∃ k, 3 ≤ k ∧ k ≤ 10 ∧ n = 2 ^ k := by
  rw [validCacheSize_iff]
  constructor
  · rintro (rfl | rfl | rfl | rfl | rfl | rfl | rfl | rfl)
    exacts [⟨3, by decide⟩, ⟨4, by decide⟩, ⟨5, by decide⟩, ⟨6, by decide⟩, ⟨7, by decide⟩, ⟨8, by decide⟩,
      ⟨9, by decide⟩, ⟨10, by decide⟩]
  · rintro ⟨k, hlo, hhi, rfl⟩
    interval_cases k <;> decide

/-- `construct` where there is no cache yet (R35, R181, R194). -/
theorem construct_of_no_cache {s : State} (h : s.cache = none) (n : Nat) :
    s.construct n = if validCacheSize n then .done { s with cache := some (Cache.fresh n) }
      else .configError (faultRecord .configError none none none) n := by
  simp only [State.construct, h]

/-- Settles O55: the two answers are the two branches of the size check. -/
theorem constructBuildsOrRefuses : Obligations.ConstructBuildsOrRefuses := by
  intro s n hnone
  rw [construct_of_no_cache hnone, ← validCacheSize_iff_pow]
  refine ⟨fun hv => ⟨Cache.fresh n, if_pos hv, rfl, List.length_replicate, fun x hx => ?_, rfl, rfl, rfl⟩,
    fun hv => if_neg hv⟩
  rw [List.eq_of_mem_replicate hx]
  rfl

/-- Settles O11, by R157's four kinds. -/
theorem retireRule : Obligations.RetireRule := fun s =>
  ⟨retire_counters s .dp, retire_counters s .mem, retire_counters s .brTaken, retire_counters s .brNotTaken⟩

end Sys2Proof.Machine
end

section
/-! SUPPORT AND PROOF. Where a step may change memory (R41, R44, R54; O27, O28): a byte it changes is one R41's table lets
be stored to, and in a legal layout no such byte lies in a code region. -/

namespace Sys2Proof.Machine

/-! ### R41's table byte by byte -/

/-- Every byte of an admitted access is admitted by itself. -/
theorem admits_byte {p : Params} {kind : Access} {a c : Word} {n k : Nat} (h : admits p kind a n) (hk : k < n)
    (hc : c.toNat = a.toNat + k) : admits p kind c 1 := by
  have holds : ∀ r : Region, holdsBytes r a n → holdsBytes r c 1 := fun r hr j hj => by
    have := hr k hk
    omega
  cases kind with
  | fetch => exact h.imp fun r ⟨hr, hb⟩ => ⟨hr, holds r hb⟩
  | load =>
    exact h.imp (holds _) (Or.imp (Exists.imp fun r ⟨hr, hb⟩ => ⟨hr, holds r hb⟩)
      (Exists.imp fun r ⟨hr, hb⟩ => ⟨hr, holds r hb⟩))
  | store => exact h.imp (holds _) (Exists.imp fun r ⟨hr, hb⟩ => ⟨hr, holds r hb⟩)

/-- A byte a store may change lies in the stack or in a buffer (R41). -/
theorem exists_region_of_admits_store {p : Params} {a : Word} (h : admits p .store a 1) :
    ∃ r ∈ (⟨p.stackBase, 1024⟩ :: p.bufferRegions : List Region),
      r.base.toNat ≤ a.toNat ∧ a.toNat < r.base.toNat + r.len := by
  rcases h with hstack | ⟨r, hr, hbuf⟩
  · exact ⟨_, List.mem_cons_self, hstack 0 Nat.one_pos⟩
  · exact ⟨r, List.mem_cons_of_mem _ hr, hbuf 0 Nat.one_pos⟩

/-- The bytes of an aligned word lie in the space: their addresses do not wrap (R47). -/
theorem toNat_add_of_aligned4 {a : Word} (h : aligned4 a = true) {k : Nat} (hk : k < 4) :
    (a + BitVec.ofNat 32 k).toNat = a.toNat + k := by
  have hmul : a.toNat % 4 = 0 := (aligned4_iff a).mp h
  have := a.isLt
  rw [BitVec.toNat_add, BitVec.toNat_ofNat]
  omega

/-! ### What a step changes -/

/-- A byte that an instruction changes is one it may store to. -/
theorem Effect.admits_of_changed {s t : State} (h : Effect s t) {a : Word} (hne : t.readByte a ≠ s.readByte a) :
    admits s.params .store a 1 := by
  have sameMem (hm : t.mem = s.mem) : admits s.params .store a 1 := absurd (readByte_of_mem_eq hm a) hne
  cases h with
  | storeWord ea v hal had =>
    obtain ⟨k, hk, rfl⟩ : ∃ k < 4, a = ea + BitVec.ofNat 32 k := by
      by_contra hout
      push Not at hout
      exact hne (readByte_writeWord_other s v hout)
    exact admits_byte ((admitted_iff _ _ _ (by decide)).mp had) hk (toNat_add_of_aligned4 hal hk)
  | storeByte ea v had =>
    obtain rfl : a = ea := by
      by_contra hout
      exact hne (readByte_writeByte_other s v hout)
    exact (admitted_iff _ _ _ Nat.one_pos).mp had
  | write d v k => exact sameMem (by simp)
  | fault | compare | noop | jump | link | notTaken => exact sameMem rfl

/-- A byte that a step changes is one R41 lets be stored to: only the executed instruction touches memory. -/
theorem step_admits_of_changed {s u : State} (h : step s = .next u) {a : Word} (hne : u.readByte a ≠ s.readByte a) :
    admits s.params .store a 1 := by
  obtain ⟨-, ⟨-, rfl⟩ | ⟨-, -, rfl⟩ | ⟨-, -, ⟨c, -, rfl⟩ | ⟨iw, t, -, ho, hend⟩⟩⟩ := step_next_cases h
  · exact absurd rfl hne
  · exact absurd rfl hne
  · exact absurd rfl hne
  obtain ⟨c, -, rfl⟩ := observe_spec ho
  rcases hend with ⟨e, -, rfl⟩ | ⟨i, -, hx⟩
  · exact absurd rfl hne
  · exact (effect_of_exec hx).admits_of_changed hne

/-- Settles O27: a changed byte is one a store admits, and stores are admitted in the stack and the buffers only. -/
theorem stepsChangeOnlyStackAndBuffers : Obligations.StepsChangeOnlyStackAndBuffers :=
  fun _ _ _ h hne => exists_region_of_admits_store (step_admits_of_changed h hne)

/-! ### Legal layouts -/

theorem regionsDisjoint_iff (rs : List Region) :
    regionsDisjoint rs = true ↔ rs.Pairwise (fun p q => p.disjoint q = true) := by
  induction rs with
  | nil => simp [regionsDisjoint]
  | cons p ps ih => simp [regionsDisjoint, ih]

/-- In a legal layout a code region shares no byte with the stack or a buffer (R41). -/
theorem disjoint_code_of_wf {p : Params} (h : p.wf = true) {q r : Region}
    (hq : q ∈ (⟨p.stackBase, stackSize⟩ :: p.bufferRegions : List Region)) (hr : r ∈ p.codeRegions) :
    q.disjoint r = true := by
  simp only [Params.wf, Bool.and_eq_true] at h
  obtain ⟨⟨hdis, -⟩, -⟩ := h
  have hpair := (regionsDisjoint_iff _).mp hdis
  rw [Params.regions, ← List.cons_append, List.pairwise_append] at hpair
  obtain ⟨-, -, hcross⟩ := hpair
  exact hcross q hq r hr

/-- Disjoint regions have no address in common. -/
theorem Region.not_mem_of_disjoint {q r : Region} (h : q.disjoint r = true) {a : Nat}
    (hlo : q.base.toNat ≤ a) (hhi : a < q.base.toNat + q.len) : ¬ (r.base.toNat ≤ a ∧ a < r.base.toNat + r.len) := by
  simp only [Region.disjoint, Bool.or_eq_true, decide_eq_true_eq] at h
  omega

/-- Settles O28: a changed byte would lie in the stack or a buffer, which R41 keeps apart from the code. -/
theorem codeNeverChanges : Obligations.CodeNeverChanges := by
  intro s t r a hwf h hr hlo hhi
  by_contra hne
  obtain ⟨q, hq, hqlo, hqhi⟩ := stepsChangeOnlyStackAndBuffers s t a h hne
  exact Region.not_mem_of_disjoint (disjoint_code_of_wf hwf hq hr) hqlo hqhi ⟨hlo, hhi⟩

end Sys2Proof.Machine
end

section
/-! SUPPORT AND PROOF. Words in memory and their byte order (R45, R46, R58, R60; O7, O12, O13). -/

namespace Sys2Proof.Machine

/-- A byte of a word as a digit of it in base 256. -/
theorem byteOfWord_toNat (v : Word) (k : Nat) : (byteOfWord v k).toNat = v.toNat / 256 ^ k % 256 := by
  rw [byteOfWord, BitVec.extractLsb'_toNat, Nat.shiftRight_eq_div_pow, Nat.pow_mul]

theorem readWord_of_little {s : State} (h : s.params.endian = .little) (a : Word) :
    s.readWord a = s.readByte (a + 3#32) ++ s.readByte (a + 2#32) ++ s.readByte (a + 1#32) ++ s.readByte a := by
  rw [State.readWord, h]; rfl

theorem readWord_of_big {s : State} (h : s.params.endian = .big) (a : Word) :
    s.readWord a = s.readByte a ++ s.readByte (a + 1#32) ++ s.readByte (a + 2#32) ++ s.readByte (a + 3#32) := by
  rw [State.readWord, h]; rfl

/-- Settles O13, by the byte order. -/
theorem wordReadAssemblesBytes : Obligations.WordReadAssemblesBytes := fun _ a =>
  ⟨fun hlittle => readWord_of_little hlittle a, fun hbig => readWord_of_big hbig a⟩

/-- A word written is read back (R45, R46). -/
theorem readWord_writeWord {s : State} (hw : Memory.wf s.mem = true) (a v : Word) :
    (s.writeWord a v).readWord a = v := by
  have first : (s.writeWord a v).readByte a = storedByte s.params.endian v 0 := by
    simpa using readByte_writeWord hw a v (k := 0) (by decide)
  rw [State.readWord, writeWord_params, first, readByte_writeWord hw a v (k := 1) (by decide),
    readByte_writeWord hw a v (k := 2) (by decide), readByte_writeWord hw a v (k := 3) (by decide),
    wordOfBytes_storedByte]

/-- Settles O12, part by part. -/
theorem storedWordReadsBack : Obligations.StoredWordReadsBack := by
  intro s a v hw
  refine ⟨readWord_writeWord hw a v, fun k hk => ⟨fun hlittle => ?_, fun hbig => ?_⟩,
    fun c hc => readByte_writeWord_other s v hc, rfl, rfl, rfl, rfl, rfl, rfl, rfl⟩
  · rw [readByte_writeWord hw a v hk, hlittle]
    exact byteOfWord_toNat v k
  · rw [readByte_writeWord hw a v hk, hbig]
    exact byteOfWord_toNat v (3 - k)

/-- The decoder takes four bytes as one word and leaves the rest (R45, R60). -/
theorem decodeBytes_cons (e : Endian) (b0 b1 b2 b3 : Byte) (rest : List Byte) :
    decodeBytes e (b0 :: b1 :: b2 :: b3 :: rest)
      = (decodeWord (wordOfBytes e b0 b1 b2 b3)).map (fun i => (i, rest)) := rfl

/-- Settles O7: the four bytes a word is stored as make up that word again. -/
theorem decodeOfStoredBytes : Obligations.DecodeOfStoredBytes := by
  intro e iw rest
  simp only [bytesOfWord, List.cons_append, List.nil_append, decodeBytes_cons, wordOfBytes_storedByte]

end Sys2Proof.Machine
end

section
/-! SUPPORT AND PROOF. The step up to dispatch (R150 to R155, R163; O38, O40) and the placing of a word where the next
step fetches (log 3; O46). -/

namespace Sys2Proof.Machine

/-! ### The sequencer, one equation per way to go on -/

theorem step_of_ends {s t : State} (hrun : s.runState = .running) (h : s.runningFrontEnd = .ends t) :
    step s = .next t := by
  simp only [step, State.frontEnd, hrun, h]

theorem step_of_runs {s t : State} {i : Instr} (hrun : s.runState = .running) (h : s.runningFrontEnd = .runs i t) :
    step s = exec i t := by
  simp only [step, State.frontEnd, hrun, h]

/-- The budget is tested before the fetch (R152, R163). -/
theorem runningFrontEnd_of_spent {s : State} (h0 : s.pc ≠ 0#32) (hb : s.counters.total = s.params.stepLimit) :
    s.runningFrontEnd = .ends (s.raise .nonTermination none none) := by
  rw [State.runningFrontEnd, if_neg h0, if_pos hb]

/-- A fetch that fails is the step's fault (R153). -/
theorem runningFrontEnd_of_fetch_error {s : State} (h0 : s.pc ≠ 0#32) (hb : s.counters.total ≠ s.params.stepLimit)
    {c : Cause} (hf : s.fetch s.pc = .error c) : s.runningFrontEnd = .ends (s.raise c none (some s.pc)) := by
  rw [State.runningFrontEnd, if_neg h0, if_neg hb, hf]

/-- A state that fetches goes on with the word at its PC (R153, R154). -/
theorem runningFrontEnd_of_fetches {s : State} (h : fetches s) :
    s.runningFrontEnd = s.classifyFetched (s.readWord s.pc) := by
  obtain ⟨-, h0, hb, hal, had⟩ := h
  have hf : s.fetch s.pc = .ok (s.readWord s.pc) :=
    (fetch_eq_ok s).mpr ⟨(aligned4_iff _).mpr hal, (admitted_iff _ _ _ (by decide)).mpr had, rfl⟩
  rw [State.runningFrontEnd, if_neg h0, if_neg hb, hf]

/-- The fetched word's cache access is the one the statements speak of (R154, R171). -/
theorem observe_readWord_pc {s : State} {c : Cache} (hc : s.cache = some c) :
    s.observe (s.readWord s.pc) = some (afterAccess s c) := by
  rw [State.observe, hc]
  unfold afterAccess cacheKeyOf
  cases s.params.cacheKey <;> rfl

/-- A fetched word that decodes is run after its cache access (R155). -/
theorem classifyFetched_of_decode {s : State} {c : Cache} {i : Instr} (hc : s.cache = some c)
    (hd : decodeWord (s.readWord s.pc) = .ok i) :
    s.classifyFetched (s.readWord s.pc) = .runs i (afterAccess s c) := by
  simp only [State.classifyFetched, observe_readWord_pc hc, hd]

/-- Settles O38. -/
theorem stepRunsTheDecodedInstruction : Obligations.StepRunsTheDecodedInstruction := by
  intro s c i hfetch hc hd
  obtain ⟨hrun, -⟩ := id hfetch
  exact step_of_runs hrun ((runningFrontEnd_of_fetches hfetch).trans (classifyFetched_of_decode hc hd))

/-! ### Faults before an instruction is fetched -/

/-- Taking a fault is the precise fault the statements speak of (R195, R198). -/
theorem faultsWith_raise (s : State) (c : Cause) (w a : Option Word) :
    faultsWith s ⟨c, c.code, some s.pc, w, a⟩ (.next (s.raise c w a)) :=
  ⟨_, rfl, raise_spec s c w a⟩

theorem faultsWith_of_fetch_error {s : State} (hrun : s.runState = .running) (h0 : s.pc ≠ 0#32)
    (hb : s.counters.total ≠ s.params.stepLimit) {c : Cause} (hf : s.fetch s.pc = .error c) :
    faultsWith s ⟨c, c.code, some s.pc, none, some s.pc⟩ (step s) := by
  rw [step_of_ends hrun (runningFrontEnd_of_fetch_error h0 hb hf)]
  exact faultsWith_raise s c none (some s.pc)

/-- Settles O40: the budget's test, and the two ways a fetch can fail. -/
theorem faultsBeforeDecode : Obligations.FaultsBeforeDecode := by
  intro s hrun h0
  refine ⟨fun hspent => ?_, fun hb hal => ?_, fun hb hal had => ?_⟩
  · rw [step_of_ends hrun (runningFrontEnd_of_spent h0 hspent)]
    exact faultsWith_raise s .nonTermination none none
  · exact faultsWith_of_fetch_error hrun h0 hb
      ((fetch_eq_error s).mpr (.inl ⟨(aligned4_eq_false_iff _).mpr hal, rfl⟩))
  · exact faultsWith_of_fetch_error hrun h0 hb ((fetch_eq_error s).mpr
      (.inr ⟨(aligned4_iff _).mpr hal, (admitted_eq_false_iff _ _ _ (by decide)).mpr had, rfl⟩))

/-! ### A placed word -/

/-- The parameters' change that admits a fetch at an address admits it (log 3). -/
theorem admits_withCodeAt (p : Params) (a : Word) : admits (withCodeAt p a) .fetch a 4 := by
  unfold withCodeAt
  split
  · exact (admitted_iff _ _ _ (by decide)).mp ‹_›
  · exact ⟨⟨a, 4⟩, List.mem_cons_self, fun k hk => ⟨Nat.le_add_right _ _, by simpa using hk⟩⟩

@[simp] theorem withBudget_codeRegions (p : Params) (n : Nat) : (withBudget p n).codeRegions = p.codeRegions := by
  unfold withBudget; split <;> rfl

theorem ne_withBudget_stepLimit (p : Params) (n : Nat) : n ≠ (withBudget p n).stepLimit := by
  unfold withBudget
  split
  · exact Nat.ne_of_lt (Nat.lt_succ_self n)
  · assumption

/-- The address a word is placed at is neither 0 nor unaligned (R49, R151). -/
theorem fetchableAddress_ok (s : State) : s.fetchableAddress ≠ 0#32 ∧ multipleOf4 s.fetchableAddress := by
  unfold State.fetchableAddress
  split
  · exact ⟨by decide, (aligned4_iff _).mp (by decide)⟩
  · rename_i h
    simp only [Bool.or_eq_true, decide_eq_true_eq, Bool.not_eq_true', not_or, Bool.not_eq_false] at h
    obtain ⟨hne, hal⟩ := h
    exact ⟨hne, (aligned4_iff _).mp hal⟩

@[simp] theorem pc_readyToFetch (s : State) : s.readyToFetch.pc = s.fetchableAddress := pc_setPc s _

/-- A state made ready fetches, where its PC is (R151 to R153). -/
theorem fetches_readyToFetch (s : State) : fetches s.readyToFetch := by
  obtain ⟨hne, hal⟩ := fetchableAddress_ok s
  refine ⟨rfl, ?_, ne_withBudget_stepLimit _ _, ?_, ?_⟩ <;> rw [pc_readyToFetch]
  · exact hne
  · exact hal
  · simpa only [admits, State.readyToFetch, withBudget_codeRegions] using admits_withCodeAt s.params s.fetchableAddress

/-- A store changes nothing of what the fetch's guards read. -/
theorem fetches_writeWord {s : State} (h : fetches s) (a v : Word) : fetches (s.writeWord a v) := h

/-- The word placed is the word at the PC. -/
theorem readWord_withFetchWord {s : State} (hw : Memory.wf s.mem = true) (nbits w : Nat) :
    (s.withFetchWord nbits w).readWord (s.withFetchWord nbits w).pc = tableWord nbits w := by
  rw [State.withFetchWord, pc_writeWord, pc_readyToFetch]
  exact readWord_writeWord (s := s.readyToFetch) hw _ _

/-- Settles O46: the placed word is fetched, and a step runs the instruction its word decodes to (O38). -/
theorem placedWordIsExecuted : Obligations.PlacedWordIsExecuted := by
  intro s w i hw hd
  have hfetch : fetches (s.withFetchWord 32 w) := fetches_writeWord (fetches_readyToFetch s) _ _
  rw [← readWord_withFetchWord hw 32 w] at hd
  exact ⟨_, stepRunsTheDecodedInstruction _ _ i hfetch rfl hd, rfl, rfl, rfl⟩

end Sys2Proof.Machine
end

section
/-! SUPPORT AND PROOF. The decoder reads what its rules say: the classes by R74's tests and by R75's masks (O4, O5), the
maps of R77 to R79 (O6), and every well-formed instruction back from its own word (R61 to R68, log 8; O1, O3). -/

namespace Sys2Proof

/-! ### Fields read back from bits -/

theorem regField_of_bits {iw : Word} {lo : Nat} {r : Reg} (h : iw.extractLsb' lo 4 = bitsOfReg r) :
    regField iw lo = r := by
  rw [regField, h, regOfBits_bitsOfReg]

theorem bitsOfReg_injective : Function.Injective bitsOfReg := fun _ _ h => congrArg regOfBits h

/-- The two parts of a joined field are determined by it. -/
theorem append_parts_eq {m n : Nat} {x x' : BitVec m} {y y' : BitVec n} (h : x ++ y = x' ++ y') : x = x' ∧ y = y' := by
  have high := congrArg (BitVec.extractLsb' n m) h
  have low := congrArg (BitVec.extractLsb' 0 n) h
  rw [BitVec.extractLsb'_append_eq_of_le (le_refl n), BitVec.extractLsb'_append_eq_of_le (le_refl n)] at high
  rw [BitVec.extractLsb'_append_eq_of_add_le (by omega), BitVec.extractLsb'_append_eq_of_add_le (by omega)] at low
  exact ⟨by simpa using high, by simpa using low⟩

/-- Bits [25] and [11:0] determine the second operand (R62). -/
theorem operand2_eq_of_bits {o q : Operand2} (hi : o.iBit = q.iBit) (hb : o.bits = q.bits) : o = q := by
  cases o <;> cases q <;> simp only [Operand2.iBit, reduceCtorEq] at hi
  case imm.imm =>
    obtain ⟨rfl, rfl⟩ := append_parts_eq hb
    rfl
  case reg.reg =>
    obtain ⟨rfl, hrm⟩ := append_parts_eq hb
    obtain rfl := bitsOfReg_injective hrm
    rfl

/-- Bits [25] and [11:0] determine the offset (R64). -/
theorem offset_eq_of_bits {o q : Offset} (hi : o.iBit = q.iBit) (hb : o.bits = q.bits) : o = q := by
  cases o <;> cases q <;> simp only [Offset.iBit, reduceCtorEq] at hi
  case imm.imm => exact congrArg Offset.imm hb
  case reg.reg =>
    obtain ⟨rfl, hrm⟩ := append_parts_eq hb
    obtain rfl := bitsOfReg_injective hrm
    rfl

/-! ### Each format's fields from its word -/

theorem operand2Of_encodeDp (opcode : BitVec 4) (f : DpFields) : operand2Of (encodeDp opcode f) = f.op2 :=
  operand2_eq_of_bits ((operand2Of_iBit _).trans (bitField_of_extract (encodeDp_bits_25_1 opcode f)))
    ((operand2Of_bits _).trans (encodeDp_bits_0_12 opcode f))

theorem offsetOf_encodeMem (l b : Bool) (f : MemFields) : offsetOf (encodeMem l b f) = f.off :=
  offset_eq_of_bits ((offsetOf_iBit _).trans (bitField_of_extract (encodeMem_bits_25_1 l b f)))
    ((offsetOf_bits _).trans (encodeMem_bits_0_12 l b f))

theorem dpFieldsOf_encodeDp (opcode : BitVec 4) (f : DpFields) : dpFieldsOf (encodeDp opcode f) = f := by
  simp only [dpFieldsOf, fieldsOf, encodeDp_bits_28_4, bitField_of_extract (encodeDp_bits_20_1 opcode f),
    regField_of_bits (encodeDp_bits_16_4 opcode f), regField_of_bits (encodeDp_bits_12_4 opcode f), operand2Of_encodeDp]

theorem mulFieldsOf_encodeMul (f : MulFields) : mulFieldsOf (encodeMul f) = f := by
  simp only [mulFieldsOf, fieldsOf, encodeMul_bits_28_4, encodeMul_bits_20_6, encodeMul_bits_0_4,
    regField_of_bits (encodeMul_bits_16_4 f), regField_of_bits (encodeMul_bits_12_4 f),
    regField_of_bits (encodeMul_bits_8_4 f)]

theorem memFieldsOf_encodeMem (l b : Bool) (f : MemFields) : memFieldsOf (encodeMem l b f) = f := by
  simp only [memFieldsOf, fieldsOf, encodeMem_bits_28_4, bitField_of_extract (encodeMem_bits_24_1 l b f),
    bitField_of_extract (encodeMem_bits_23_1 l b f), bitField_of_extract (encodeMem_bits_21_1 l b f),
    regField_of_bits (encodeMem_bits_16_4 l b f), regField_of_bits (encodeMem_bits_12_4 l b f), offsetOf_encodeMem]

theorem branchFieldsOf_encodeBranch (link : Bool) (f : BranchFields) : branchFieldsOf (encodeBranch link f) = f := by
  simp only [branchFieldsOf, fieldsOf, encodeBranch_bits_28_4, encodeBranch_bits_0_24]

theorem bxFieldsOf_encodeBx (f : BxFields) : bxFieldsOf (encodeBx f) = f := by
  simp only [bxFieldsOf, fieldsOf, encodeBx_bits_28_4, regField_of_bits (encodeBx_bits_0_4 f)]

/-! ### The decoder's answer by class (R74, R77 to R80) -/

theorem decodeWord_of_bx {iw : Word} (h : classify iw = .bx) : decodeWord iw = .ok (.bx (bxFieldsOf iw)) := by
  simp only [decodeWord, h]

theorem decodeWord_of_mul {iw : Word} (h : classify iw = .mul) : decodeWord iw = .ok (.mul (mulFieldsOf iw)) := by
  simp only [decodeWord, h]

theorem decodeWord_of_mem {iw : Word} (h : classify iw = .mem) {l b : Bool} (hl : bitField iw 20 = l)
    (hb : bitField iw 22 = b) : decodeWord iw = .ok (memInstr l b (memFieldsOf iw)) := by
  simp only [decodeWord, h, fieldsOf, hl, hb]

theorem decodeWord_of_dp {iw : Word} (h : classify iw = .dp) {opcode : BitVec 4}
    (hop : iw.extractLsb' 21 4 = opcode) : decodeWord iw = .ok (dpInstr opcode (dpFieldsOf iw)) := by
  simp only [decodeWord, h, fieldsOf, hop]

theorem decodeWord_of_branch {iw : Word} (h : classify iw = .branch) {link : Bool} (hl : bitField iw 24 = link) :
    decodeWord iw = .ok (branchInstr link (branchFieldsOf iw)) := by
  simp only [decodeWord, h, fieldsOf, hl]

theorem decodeWord_of_unrecognized {iw : Word} (h : classify iw = .unrecognized) :
    decodeWord iw = .error (.unrecognized iw) := by
  simp only [decodeWord, h]

/-! ### Each format decoded from its word -/

theorem decodeWord_encodeDp {opcode : BitVec 4} {f : DpFields} (h : classify (encodeDp opcode f) = .dp) :
    decodeWord (encodeDp opcode f) = .ok (dpInstr opcode f) := by
  rw [decodeWord_of_dp h (encodeDp_bits_21_4 opcode f), dpFieldsOf_encodeDp]

theorem decodeWord_encodeMul (f : MulFields) : decodeWord (encodeMul f) = .ok (.mul f) := by
  rw [decodeWord_of_mul (classify_encodeMul f), mulFieldsOf_encodeMul]

theorem decodeWord_encodeMem (l b : Bool) (f : MemFields) :
    decodeWord (encodeMem l b f) = .ok (memInstr l b f) := by
  rw [decodeWord_of_mem (classify_encodeMem l b f) (bitField_of_extract (encodeMem_bits_20_1 l b f))
    (bitField_of_extract (encodeMem_bits_22_1 l b f)), memFieldsOf_encodeMem]

theorem decodeWord_encodeBranch (link : Bool) (f : BranchFields) :
    decodeWord (encodeBranch link f) = .ok (branchInstr link f) := by
  rw [decodeWord_of_branch (classify_encodeBranch link f) (bitField_of_extract (encodeBranch_bits_24_1 link f)),
    branchFieldsOf_encodeBranch]

theorem decodeWord_encodeBx (f : BxFields) : decodeWord (encodeBx f) = .ok (.bx f) := by
  rw [decodeWord_of_bx (classify_encodeBx f), bxFieldsOf_encodeBx]

/-- Settles O1, by the instruction's constructor: its word is of its class, and the decoder reads that class's fields
back. -/
theorem decodeOfEncode : Obligations.DecodeOfEncode := by
  intro i h
  cases i with
  | bx f => exact decodeWord_encodeBx f
  | mul f => exact decodeWord_encodeMul f
  | ldr f => exact decodeWord_encodeMem true false f
  | ldrb f => exact decodeWord_encodeMem true true f
  | str f => exact decodeWord_encodeMem false false f
  | strb f => exact decodeWord_encodeMem false true f
  | add f => exact decodeWord_encodeDp (Laws.EncodesToItsClass.add f h)
  | sub f => exact decodeWord_encodeDp (Laws.EncodesToItsClass.sub f h)
  | cmp f => exact decodeWord_encodeDp (Laws.EncodesToItsClass.cmp f h)
  | mov f => exact decodeWord_encodeDp (Laws.EncodesToItsClass.mov f h)
  | dpnopAnd f => exact decodeWord_encodeDp (Laws.EncodesToItsClass.dpnopAnd f h)
  | dpnopEor f => exact decodeWord_encodeDp (Laws.EncodesToItsClass.dpnopEor f h)
  | dpnopRsb f => exact decodeWord_encodeDp (Laws.EncodesToItsClass.dpnopRsb f h)
  | dpnopAdc f => exact decodeWord_encodeDp (Laws.EncodesToItsClass.dpnopAdc f h)
  | dpnopSbc f => exact decodeWord_encodeDp (Laws.EncodesToItsClass.dpnopSbc f h)
  | dpnopRsc f => exact decodeWord_encodeDp (Laws.EncodesToItsClass.dpnopRsc f h)
  | dpnopTst f => exact decodeWord_encodeDp (Laws.EncodesToItsClass.dpnopTst f h)
  | dpnopTeq f => exact decodeWord_encodeDp (Laws.EncodesToItsClass.dpnopTeq f h)
  | dpnopCmn f => exact decodeWord_encodeDp (Laws.EncodesToItsClass.dpnopCmn f h)
  | dpnopOrr f => exact decodeWord_encodeDp (Laws.EncodesToItsClass.dpnopOrr f h)
  | dpnopBic f => exact decodeWord_encodeDp (Laws.EncodesToItsClass.dpnopBic f h)
  | dpnopMvn f => exact decodeWord_encodeDp (Laws.EncodesToItsClass.dpnopMvn f h)
  | b f => exact decodeWord_encodeBranch false f
  | bl f => exact decodeWord_encodeBranch true f

/-- Settles O3: each word of 95_test_vectors.md section 2.2 evaluated. -/
theorem wordsOfTheSpecDecode : Obligations.WordsOfTheSpecDecode :=
  ⟨rfl, rfl, rfl, rfl, rfl, rfl, rfl⟩

/-- Settles O6, one map at a time. -/
theorem mapsSelectTheInstruction : Obligations.MapsSelectTheInstruction := by
  refine ⟨fun iw hdp => ?dp, fun iw hmem => ?mem, fun iw hbr => ?branch, fun iw => decodeWord_of_bx,
    fun iw => decodeWord_of_mul⟩
  case dp =>
    refine ⟨?_, ?_, ?_, ?_, ?_, ?_, ?_, ?_, ?_, ?_, ?_, ?_, ?_, ?_, ?_, ?_⟩ <;> exact decodeWord_of_dp hdp
  case mem => refine ⟨?_, ?_, ?_, ?_⟩ <;> exact decodeWord_of_mem hmem
  case branch => exact ⟨decodeWord_of_branch hbr, decodeWord_of_branch hbr⟩

/-! ### The classes by their bits -/

/-- A word with the bits of a class is of it: no test before that class's own in R74 holds of such a word (R76). -/
theorem classify_of_classBits {iw : Word} {c : WordClass} (hc : c ≠ .unrecognized) (h : classBits iw c) :
    classify iw = c := by
  cases c with
  | bx => exact if_pos h
  | mul =>
    obtain ⟨hop, hs⟩ := h
    exact classify_of_mul hop hs
  | mem => exact classify_of_mem h
  | dp =>
    obtain ⟨hop, hs, hbx⟩ := h
    exact classify_of_dp hop hs hbx
  | branch => exact classify_of_branch h
  | unrecognized => exact absurd rfl hc

theorem classify_eq_iff (iw : Word) {c : WordClass} (hc : c ≠ .unrecognized) : classify iw = c ↔ classBits iw c :=
  ⟨fun h => h ▸ classBits_classify iw, classify_of_classBits hc⟩

/-- What no class claims: op class 11, and op class 10 with bit 25 clear (R74, R80). -/
theorem classify_eq_unrecognized_iff (iw : Word) :
    classify iw = .unrecognized ↔ iw.extractLsb' 26 2 = 0b11#2 ∨ iw.extractLsb' 25 3 = 0b100#3 := by
  have top : iw.extractLsb' 26 2 = (iw.extractLsb' 25 3).extractLsb' 1 2 :=
    (extract_extract iw (s := 25) (l := 3) (s' := 1) (l' := 2) (by decide)).symm
  have unclaimed : ∀ v : BitVec 3, (v.extractLsb' 1 2 = 0b11#2 ∨ v = 0b100#3)
      ↔ v.extractLsb' 1 2 ≠ 0b00#2 ∧ v.extractLsb' 1 2 ≠ 0b01#2 ∧ v ≠ 0b101#3 := by decide
  rw [top, unclaimed, ← top]
  constructor
  · intro h
    have no : ∀ c, c ≠ .unrecognized → ¬ classBits iw c := fun c hc bits =>
      hc ((classify_of_classBits hc bits).symm.trans h)
    exact ⟨fun hop => no .dp (by decide) ⟨hop, fun hs => no .mul (by decide) ⟨hop, hs⟩, no .bx (by decide)⟩,
      no .mem (by decide), no .branch (by decide)⟩
  · rintro ⟨hop, hmem, hbr⟩
    have hbx : iw.extractLsb' 4 24 ≠ 0x12FFF1#24 := fun hp => by
      obtain ⟨hp, -⟩ := bx_pattern_bits hp
      exact hop hp
    simp [classify, hbx, hop, hmem, hbr]

/-- Settles O4: `classify_eq_iff` class by class, MUL leaving no room for the BX pattern. -/
theorem classifyInOrder : Obligations.ClassifyInOrder := by
  intro iw
  refine ⟨classify_eq_iff iw (by decide), ?mul, classify_eq_iff iw (by decide), ?dp, classify_eq_iff iw (by decide),
    classify_eq_unrecognized_iff iw⟩
  case mul =>
    rw [classify_eq_iff iw (by decide)]
    refine ⟨fun ⟨hop, hs⟩ => ⟨fun hbx => ?_, hop, hs⟩, fun ⟨_, hop, hs⟩ => ⟨hop, hs⟩⟩
    obtain ⟨-, hbx⟩ := bx_pattern_bits hbx
    rw [hbx] at hs
    exact absurd hs (by decide)
  case dp =>
    rw [classify_eq_iff iw (by decide)]
    exact ⟨fun ⟨hop, hs, hbx⟩ => ⟨hbx, hop, hs⟩, fun ⟨hbx, hop, hs⟩ => ⟨hop, hs, hbx⟩⟩

/-! ### The classes as masks (R75) -/

theorem getLsbD_place {w : Nat} (lo i : Nat) (x : BitVec w) :
    (place lo x).getLsbD i = (decide (i < 32) && !decide (i < lo) && x.getLsbD (i - lo)) := by
  rw [place, BitVec.getLsbD_shiftLeft, BitVec.getLsbD_setWidth]
  by_cases h : i < 32
  · simp [show i - lo < 32 by omega]
  · simp [h]

/-- A mask over one field compares that field. -/
theorem masked_eq_iff (iw : Word) {lo w : Nat} (hw : lo + w ≤ 32) (v : BitVec w) :
    iw &&& place lo (BitVec.allOnes w) = place lo v ↔ iw.extractLsb' lo w = v := by
  constructor
  · intro h
    have field := congrArg (BitVec.extractLsb' lo w) h
    simpa [BitVec.extractLsb'_and, extract_place_inside _ (le_refl lo) hw] using field
  · rintro rfl
    apply BitVec.eq_of_getLsbD_eq
    intro i hi
    by_cases hlo : i < lo
    · simp only [BitVec.getLsbD_and, getLsbD_place, hlo, decide_true, Bool.not_true, Bool.and_false, Bool.false_and]
    · simp only [BitVec.getLsbD_and, getLsbD_place, BitVec.getLsbD_allOnes, BitVec.getLsbD_extractLsb', hi, hlo,
        Nat.add_sub_cancel' (Nat.not_lt.mp hlo), decide_true, decide_false, Bool.not_false, Bool.true_and, Bool.and_comm]

theorem bxMask_iff (iw : Word) : iw &&& 0x0FFFFFF0#32 = 0x012FFF10#32 ↔ iw.extractLsb' 4 24 = 0x12FFF1#24 :=
  masked_eq_iff iw (lo := 4) (by decide) 0x12FFF1#24

theorem memMask_iff (iw : Word) : iw &&& 0x0C000000#32 = 0x04000000#32 ↔ iw.extractLsb' 26 2 = 0b01#2 :=
  masked_eq_iff iw (lo := 26) (by decide) 0b01#2

theorem opClassZeroMask_iff (iw : Word) : iw &&& 0x0C000000#32 = 0x00000000#32 ↔ iw.extractLsb' 26 2 = 0b00#2 :=
  masked_eq_iff iw (lo := 26) (by decide) 0b00#2

theorem branchMask_iff (iw : Word) : iw &&& 0x0E000000#32 = 0x0A000000#32 ↔ iw.extractLsb' 25 3 = 0b101#3 :=
  masked_eq_iff iw (lo := 25) (by decide) 0b101#3

/-- MUL's mask is over two fields, the op class and bits [7:4]. -/
theorem mulMask_iff (iw : Word) :
    iw &&& 0x0C0000F0#32 = 0x00000090#32 ↔ iw.extractLsb' 26 2 = 0b00#2 ∧ iw.extractLsb' 4 4 = 0b1001#4 := by
  constructor
  · intro h
    have hop := congrArg (BitVec.extractLsb' 26 2) h
    have hs := congrArg (BitVec.extractLsb' 4 4) h
    rw [BitVec.extractLsb'_and] at hop hs
    exact ⟨BitVec.and_allOnes.symm.trans hop, BitVec.and_allOnes.symm.trans hs⟩
  · rintro ⟨hop, hs⟩
    rw [show 0x0C0000F0#32 = place 26 (BitVec.allOnes 2) ||| place 4 (BitVec.allOnes 4) from rfl,
      BitVec.and_or_distrib_left, (masked_eq_iff iw (by decide) _).mpr hop, (masked_eq_iff iw (by decide) _).mpr hs]
    rfl

/-- Settles O5: each class's bits (R74) under its mask. -/
theorem classesByMask : Obligations.ClassesByMask := by
  intro iw
  simp only [ne_eq, bxMask_iff, mulMask_iff, memMask_iff, opClassZeroMask_iff, branchMask_iff]
  refine ⟨classify_eq_iff iw (by decide), classify_eq_iff iw (by decide), classify_eq_iff iw (by decide), ?dp,
    classify_eq_iff iw (by decide)⟩
  case dp =>
    rw [classify_eq_iff iw (by decide)]
    exact ⟨fun ⟨hop, hs, hbx⟩ => ⟨hop, fun ⟨_, hs'⟩ => hs hs', hbx⟩,
      fun ⟨hop, hmul, hbx⟩ => ⟨hop, fun hs => hmul ⟨hop, hs⟩, hbx⟩⟩

end Sys2Proof
end

section
/-! SUPPORT AND PROOF. What execution reads of a word: the operand forms (R71, R72, R73, R115; O8, O9, O30), a word that
spells no instruction (R80, R161; O41), and the bits no execution reads (R68; O22). -/

namespace Sys2Proof.Machine

/-! ### Operand forms -/

theorem operand2Of_of_imm {iw : Word} (h : iw.getLsbD 25 = true) :
    operand2Of iw = .imm (iw.extractLsb' 8 4) (iw.extractLsb' 0 8) := if_pos h

theorem operand2Of_of_reg {iw : Word} (h : iw.getLsbD 25 = false) :
    operand2Of iw = .reg (iw.extractLsb' 4 8) (regField iw 0) := if_neg (Bool.eq_false_iff.mp h)

theorem offsetOf_of_reg {iw : Word} (h : iw.getLsbD 25 = true) :
    offsetOf iw = .reg (iw.extractLsb' 4 8) (regField iw 0) := if_pos h

theorem offsetOf_of_imm {iw : Word} (h : iw.getLsbD 25 = false) : offsetOf iw = .imm (iw.extractLsb' 0 12) :=
  if_neg (Bool.eq_false_iff.mp h)

/-- A word's low field, zero-extended, is the word modulo a power of two. -/
theorem toNat_zeroExtend_lowField (iw : Word) {w : Nat} (hw : w ≤ 32) :
    ((iw.extractLsb' 0 w).setWidth 32).toNat = iw.toNat % 2 ^ w := by
  rw [BitVec.toNat_setWidth_of_le hw, BitVec.extractLsb'_toNat, Nat.shiftRight_zero]

/-- Settles O8, by bit 25. -/
theorem operandTwoForms : Obligations.OperandTwoForms := by
  intro iw s
  refine ⟨fun himm => ?_, fun hreg => ?_⟩
  · rw [operand2Of_of_imm himm]
    exact toNat_zeroExtend_lowField iw (w := 8) (by decide)
  · rw [operand2Of_of_reg hreg]
    rfl

/-- `EA` of a word's fields: the base register's value and the offset's (R115). -/
theorem effectiveAddress_memFieldsOf (s : State) (iw : Word) :
    s.effectiveAddress (memFieldsOf iw) = s.reg (regOfBits (iw.extractLsb' 16 4)) + s.memOffset (offsetOf iw) := rfl

/-- Settles O9, by bit 25. -/
theorem effectiveAddressForms : Obligations.EffectiveAddressForms := by
  intro iw s
  rw [effectiveAddress_memFieldsOf]
  refine ⟨fun hreg => ?_, fun himm => ?_⟩
  · rw [offsetOf_of_reg hreg]
    rfl
  · have offset : (s.memOffset (.imm (iw.extractLsb' 0 12))).toNat = iw.toNat % 4096 :=
      toNat_zeroExtend_lowField iw (w := 12) (by decide)
    rw [offsetOf_of_imm himm, BitVec.toNat_add, offset]

/-- Appending two zero bits multiplies by four, and sign extension keeps the signed value (R73). -/
theorem toInt_branchOffset (imm24 : BitVec 24) : (branchOffset imm24).toInt = 4 * imm24.toInt := by
  rw [branchOffset, BitVec.toInt_signExtend_of_le (by decide), BitVec.toInt_append]
  simp

/-- Settles O30: the range is four times that of a signed 24-bit field. -/
theorem branchOffsetRule : Obligations.BranchOffsetRule := by
  intro imm24
  have low : -2 ^ 23 ≤ imm24.toInt := imm24.le_toInt
  have high : imm24.toInt < 2 ^ 23 := imm24.toInt_lt
  have scaled := toInt_branchOffset imm24
  exact ⟨scaled, by omega, by omega⟩

/-! ### A word that spells no instruction -/

theorem classifyFetched_of_unrecognized {s : State} {c : Cache} (hc : s.cache = some c)
    (hu : classify (s.readWord s.pc) = .unrecognized) :
    s.classifyFetched (s.readWord s.pc)
      = .ends ((afterAccess s c).raise .decodeError (some (s.readWord s.pc)) none) := by
  simp only [State.classifyFetched, observe_readWord_pc hc, decodeWord_of_unrecognized hu]

/-- Settles O41: the step ends with the fault after the fetched word's cache access. -/
theorem unrecognizedWordFaults : Obligations.UnrecognizedWordFaults := by
  intro s c hfetch hc hu
  obtain ⟨hrun, -⟩ := id hfetch
  rw [step_of_ends hrun ((runningFrontEnd_of_fetches hfetch).trans (classifyFetched_of_unrecognized hc hu))]
  exact faultsWith_raise (afterAccess s c) .decodeError (some (s.readWord s.pc)) none

/-! ### The bits no execution reads

A check of the executors faults under the same condition whatever instruction it stands for, and the instruction shows
only in the record's word. -/

theorem withoutWord_guardPcField (i j : Instr) (rd : Reg) (s : State) {go go' : Result}
    (h : withoutWord go = withoutWord go') :
    withoutWord (guardPcField i rd s go) = withoutWord (guardPcField j rd s go') := by
  unfold guardPcField
  split
  · exact withoutWord_raise s _ _ _ _
  · exact h

theorem withoutWord_guardAligned (i j : Instr) (ea : Word) (s : State) {go go' : Result}
    (h : withoutWord go = withoutWord go') :
    withoutWord (guardAligned i ea s go) = withoutWord (guardAligned j ea s go') := by
  unfold guardAligned
  split
  · exact h
  · exact withoutWord_raise s _ _ _ _

theorem withoutWord_guardAdmitted (i j : Instr) (k : Access) (ea : Word) (n : Nat) (s : State) {go go' : Result}
    (h : withoutWord go = withoutWord go') :
    withoutWord (guardAdmitted i k ea n s go) = withoutWord (guardAdmitted j k ea n s go') := by
  unfold guardAdmitted
  split
  · exact h
  · exact withoutWord_raise s _ _ _ _

/-- A no-op opcode reads nothing of its word but the destination field (R99). -/
theorem withoutWord_dpNoop (i j : Instr) {f g : DpFields} (h : g.rd = f.rd) (s : State) :
    withoutWord (dpNoop i g s) = withoutWord (dpNoop j f s) := by
  unfold dpNoop
  rw [h]
  exact withoutWord_guardPcField i j f.rd s rfl

/-- Data-processing fields that agree in what ADD, SUB, CMP and MOV read (R62, R101, R102). -/
structure SameReadDp (f g : DpFields) : Prop where
  rn : g.rn = f.rn
  rd : g.rd = f.rd
  op2 : sameReadOperand f.op2 g.op2

section
variable {f g : DpFields} (h : SameReadDp f g) (s : State)
include h

theorem exec_add_of_sameRead : exec (.add g) s = exec (.add f) s := by
  show execAdd g s = execAdd f s
  rw [execAdd, execAdd, dpWrite, dpWrite, h.rn, h.rd, operand2_of_sameRead s h.op2]

theorem exec_sub_of_sameRead : exec (.sub g) s = exec (.sub f) s := by
  show execSub g s = execSub f s
  rw [execSub, execSub, dpWrite, dpWrite, h.rn, h.rd, operand2_of_sameRead s h.op2]

theorem exec_mov_of_sameRead : exec (.mov g) s = exec (.mov f) s := by
  show execMov g s = execMov f s
  rw [execMov, execMov, dpWrite, dpWrite, h.rd, operand2_of_sameRead s h.op2]

theorem exec_cmp_of_sameRead : withoutWord (exec (.cmp g) s) = withoutWord (exec (.cmp f) s) := by
  show withoutWord (execCmp g s) = withoutWord (execCmp f s)
  rw [execCmp, execCmp, h.rn, h.rd, operand2_of_sameRead s h.op2]
  exact withoutWord_guardPcField _ _ _ s rfl

end

/-- Load and store fields that agree in what execution reads (R64, R122). -/
structure SameReadMem (f g : MemFields) : Prop where
  rn : g.rn = f.rn
  rd : g.rd = f.rd
  off : sameReadOffset f.off g.off

section
variable {f g : MemFields} (h : SameReadMem f g) (s : State)
include h

theorem effectiveAddress_of_sameRead : s.effectiveAddress g = s.effectiveAddress f := by
  rw [State.effectiveAddress, State.effectiveAddress, h.rn, memOffset_of_sameRead s h.off]

theorem exec_ldr_of_sameRead : withoutWord (exec (.ldr g) s) = withoutWord (exec (.ldr f) s) := by
  show withoutWord (execLdr g s) = withoutWord (execLdr f s)
  rw [execLdr, execLdr, effectiveAddress_of_sameRead h s, h.rd]
  exact withoutWord_guardAligned _ _ _ s (withoutWord_guardAdmitted _ _ _ _ _ s rfl)

theorem exec_ldrb_of_sameRead : withoutWord (exec (.ldrb g) s) = withoutWord (exec (.ldrb f) s) := by
  show withoutWord (execLdrb g s) = withoutWord (execLdrb f s)
  rw [execLdrb, execLdrb, effectiveAddress_of_sameRead h s, h.rd]
  exact withoutWord_guardAdmitted _ _ _ _ _ s rfl

theorem exec_str_of_sameRead : withoutWord (exec (.str g) s) = withoutWord (exec (.str f) s) := by
  show withoutWord (execStr g s) = withoutWord (execStr f s)
  rw [execStr, execStr, effectiveAddress_of_sameRead h s, h.rd]
  exact withoutWord_guardPcField _ _ _ s (withoutWord_guardAligned _ _ _ s (withoutWord_guardAdmitted _ _ _ _ _ s rfl))

theorem exec_strb_of_sameRead : withoutWord (exec (.strb g) s) = withoutWord (exec (.strb f) s) := by
  show withoutWord (execStrb g s) = withoutWord (execStrb f s)
  rw [execStrb, execStrb, effectiveAddress_of_sameRead h s, h.rd]
  exact withoutWord_guardPcField _ _ _ s (withoutWord_guardAdmitted _ _ _ _ _ s rfl)

end

/-- MUL reads its two factors and the destination `MUL_RD_FIELD` selects (R63, R111). -/
theorem exec_mul_of_sameRead {f g : MulFields} {s : State} (hn : g.rn = f.rn) (hs : g.rs = f.rs)
    (hd : mulDest s.params.mulRdField g = mulDest s.params.mulRdField f) : exec (.mul g) s = exec (.mul f) s := by
  show execMul g s = execMul f s
  rw [execMul, execMul, hn, hs, hd]

/-- Settles O22, one format at a time. -/
theorem ignoredBitsDoNotExecute : Obligations.IgnoredBitsDoNotExecute := by
  intro s c x y z
  refine ⟨fun f o ho => ?dp, fun f r o => ?noop, fun f b6 b4 r => ?mul, fun f o ho => ?mem, fun f => rfl⟩
  case dp =>
    have h : SameReadDp f { f with ignCond := c, ignS := x, op2 := o } := ⟨rfl, rfl, ho⟩
    exact ⟨exec_add_of_sameRead h s, exec_sub_of_sameRead h s, exec_mov_of_sameRead h s, exec_cmp_of_sameRead h s⟩
  case noop =>
    refine ⟨?_, ?_, ?_, ?_, ?_, ?_, ?_, ?_, ?_, ?_, ?_, ?_⟩ <;> exact withoutWord_dpNoop _ _ rfl s
  case mul =>
    refine ⟨exec_mul_of_sameRead rfl rfl ?_, fun hfield => exec_mul_of_sameRead rfl rfl ?_⟩
    · cases s.params.mulRdField <;> rfl
    · rw [hfield]
      rfl
  case mem =>
    have h : SameReadMem f { f with ignCond := c, ignP := x, ignU := y, ignW := z, off := o } := ⟨rfl, rfl, ho⟩
    exact ⟨exec_ldr_of_sameRead h s, exec_ldrb_of_sameRead h s, exec_str_of_sameRead h s, exec_strb_of_sameRead h s⟩

end Sys2Proof.Machine
end

section
/-! SUPPORT AND PROOF. The data-processing unit (41_data_processing.md): what a write back and an advance do, seen
from outside (R23, R156; O14 to O16, O18, O20), and CMP's code, alone and before a branch (R94, R131; O19, O36). -/

namespace Sys2Proof.Machine

/-! ### What the shared parts of a meaning do, in the statements' terms -/

/-- The PC's test against 0 comes before the budget's and the fetch (R151). -/
theorem runningFrontEnd_of_pc_zero {s : State} (h0 : s.pc = 0#32) : s.runningFrontEnd = .ends s.halt := by
  rw [State.runningFrontEnd, if_pos h0]

theorem haltsIfZero_all (s : State) : haltsIfZero s := fun hrun h0 =>
  step_of_ends hrun (runningFrontEnd_of_pc_zero h0)

theorem sameMemory_of_mem_eq {s t : State} (h : t.mem = s.mem) : sameMemory s t := readByte_of_mem_eq h

theorem wroteBack_writeBack (s : State) (d : Reg) (v : Word) : wroteBack d v s (s.writeBack d v) := by
  refine ⟨?dest, fun hd => ?pc, fun r hr => ?other⟩
  case dest => rw [reg_writeBack, if_pos rfl]
  case pc => rw [pc_writeBack, if_neg hd]
  case other =>
    obtain ⟨hrd, hrpc⟩ : r ≠ d ∧ r ≠ pcReg := by simpa using hr
    rw [reg_writeBack, if_neg hrd, if_neg hrpc]

/-- An instruction that writes back and retires (R156, R157): the write back, one count, and nothing else. -/
theorem writeBack_retire_spec (s : State) (d : Reg) (v : Word) (k : Retired) :
    wroteBack d v s ((s.writeBack d v).retire k) ∧ countedAs k s ((s.writeBack d v).retire k)
      ∧ ((s.writeBack d v).retire k).flags = s.flags ∧ sameMemory s ((s.writeBack d v).retire k)
      ∧ sameControl s ((s.writeBack d v).retire k) ∧ haltsIfZero ((s.writeBack d v).retire k) :=
  ⟨wroteBack_writeBack s d v, by simp [countedAs], by simp, sameMemory_of_mem_eq (by simp), by simp [sameControl],
    haltsIfZero_all _⟩

theorem wentOn_advance (s : State) : wentOn s s.advance := by
  refine ⟨pc_advance s, fun r hr => ?_⟩
  rw [reg_advance, if_neg (by simpa using hr)]

/-- An instruction that advances and retires (R23, R157): the advance, one count, and nothing else. -/
theorem advance_retire_spec (s : State) (k : Retired) :
    wentOn s (s.advance.retire k) ∧ countedAs k s (s.advance.retire k) ∧ (s.advance.retire k).flags = s.flags
      ∧ sameMemory s (s.advance.retire k) ∧ sameControl s (s.advance.retire k) :=
  ⟨wentOn_advance s, rfl, rfl, sameMemory_of_mem_eq rfl, rfl, rfl, rfl, rfl⟩

theorem guardPcField_of_ne (i : Instr) {rd : Reg} (s : State) (go : Result) (h : rd ≠ pcReg) :
    guardPcField i rd s go = go := if_neg h

/-- Destination field 15 of an instruction that writes no register faults with no effect (R98, R192). -/
theorem faultsWith_guardPcField (i : Instr) {rd : Reg} (s : State) (go : Result) (h : rd = pcReg) :
    faultsWith s ⟨.unpredictablePcField, 6, some s.pc, some (encode i), none⟩ (guardPcField i rd s go) := by
  rw [guardPcField, if_pos h]
  exact faultsWith_raise s .unpredictablePcField (some (encode i)) none

/-! ### ADD, SUB and MOV -/

/-- Settles O14: the write back of the sum, and R91's MUL immediate and example by the decoder's rules. -/
theorem addWritesTheSum : Obligations.AddWritesTheSum :=
  ⟨fun _ s => ⟨_, rfl, writeBack_retire_spec s _ _ .dp⟩, fun _ hdp => decodeWord_of_dp hdp,
    fun _ => classify_of_mul, rfl⟩

/-- Settles O15: the write back of the difference, and R92's example by the decoder's rules. -/
theorem subWritesTheDifference : Obligations.SubWritesTheDifference :=
  ⟨fun _ s => ⟨_, rfl, writeBack_retire_spec s _ _ .dp⟩, fun _ hdp => decodeWord_of_dp hdp, rfl⟩

/-- Settles O16: the write back of the operand, in which the Rn field does not occur, and R95's examples by the
decoder's rules. -/
theorem movWritesTheOperand : Obligations.MovWritesTheOperand :=
  ⟨fun _ s => ⟨_, rfl, writeBack_retire_spec s _ _ .dp⟩, fun _ _ _ => rfl, fun _ hdp => decodeWord_of_dp hdp,
    fun _ => classify_of_mul, rfl, rfl⟩

/-! ### CMP and the no-op opcodes -/

/-- CMP with a destination field other than 15 (R93). -/
theorem exec_cmp_of_ne {f : DpFields} (h : f.rd ≠ pcReg) (s : State) :
    exec (.cmp f) s
      = .next ((s.setFlags (cmpCode s.params.cmpMode (s.reg f.rn) (s.operand2 f.op2))).advance.retire .dp) :=
  guardPcField_of_ne (.cmp f) s _ h

/-- Settles O18, by the destination field's check; past it CMP advances from the state with FLAGS written. -/
theorem cmpWritesOnlyFlags : Obligations.CmpWritesOnlyFlags := by
  refine fun f s => ⟨fun hrd => ?completes, faultsWith_guardPcField (.cmp f) s _⟩
  obtain ⟨hwent, hcounted, hflags, hmem, hcontrol⟩ :=
    advance_retire_spec (s.setFlags (cmpCode s.params.cmpMode (s.reg f.rn) (s.operand2 f.op2))) .dp
  exact ⟨_, exec_cmp_of_ne hrd s, hflags, hwent, hcounted, hmem, hcontrol⟩

/-- Settles O20: each of the twelve executes as `dpNoop`, which checks the destination field and advances. -/
theorem noopOpcodesOnlyAdvance : Obligations.NoopOpcodesOnlyAdvance := by
  intro f s i hi
  have hexec : exec i s = dpNoop i f s := by fin_cases hi <;> rfl
  rw [hexec]
  exact ⟨fun hrd => ⟨_, guardPcField_of_ne i s _ hrd, advance_retire_spec s .dp⟩, faultsWith_guardPcField i s _⟩

/-! ### The comparison's code (R94) -/

section
variable (mode : CmpMode) (a b : Word)

theorem cmpCode_eq_codeEQ_iff : cmpCode mode a b = codeEQ ↔ cmpDifference mode a b = 0 := by
  rcases cmpCode_cases mode a b with ⟨hd, hc⟩ | ⟨hd, hc⟩ | ⟨hd, hc⟩ <;> rw [hc]
  · simp [hd]
  · simp [codeLT, codeEQ, hd.ne]
  · simp [codeGT, codeEQ, hd.ne']

theorem cmpCode_eq_codeLT_iff : cmpCode mode a b = codeLT ↔ cmpDifference mode a b < 0 := by
  rcases cmpCode_cases mode a b with ⟨hd, hc⟩ | ⟨hd, hc⟩ | ⟨hd, hc⟩ <;> rw [hc]
  · simp [codeEQ, codeLT, hd]
  · simp [hd]
  · simp [codeGT, codeLT, hd.le]

theorem cmpCode_eq_codeGT_iff : cmpCode mode a b = codeGT ↔ 0 < cmpDifference mode a b := by
  rcases cmpCode_cases mode a b with ⟨hd, hc⟩ | ⟨hd, hc⟩ | ⟨hd, hc⟩ <;> rw [hc]
  · simp [codeEQ, codeGT, hd]
  · simp [codeLT, codeGT, hd.le]
  · simp [hd]

end

/-- Two modes, or two pairs of operands, with equal differences give one code. -/
theorem cmpCode_congr {m n : CmpMode} {a b c d : Word} (h : cmpDifference m a b = cmpDifference n c d) :
    cmpCode m a b = cmpCode n c d := by
  rw [cmpCode, cmpCode, h]

theorem cmpDifference_exactSigned (a b : Word) : cmpDifference .exactSigned a b = a.toInt - b.toInt := rfl

theorem cmpDifference_wrap32 (a b : Word) :
    cmpDifference .wrap32 a b = (cmpDifference .exactSigned a b).bmod (2 ^ 32) := BitVec.toInt_sub

/-- The bounds of a difference of two signed 32-bit values. -/
theorem cmpDifference_exactSigned_bounds (a b : Word) :
    -2 ^ 32 < cmpDifference .exactSigned a b ∧ cmpDifference .exactSigned a b < 2 ^ 32 := by
  have ha := a.le_toInt
  have ha' := a.toInt_lt
  have hb := b.le_toInt
  have hb' := b.toInt_lt
  rw [cmpDifference_exactSigned]
  omega

/-- The code under `ExactSigned` is the order of the two signed values. -/
theorem cmpCode_exactSigned (a b : Word) :
    cmpCode .exactSigned a b = if a = b then codeEQ else if a.toInt < b.toInt then codeLT else codeGT := by
  split
  case isTrue h => exact (cmpCode_eq_codeEQ_iff _ a b).mpr (by simp [cmpDifference_exactSigned, h])
  case isFalse hne =>
    have hne' : a.toInt ≠ b.toInt := fun h => hne (BitVec.eq_of_toInt_eq h)
    split
    case isTrue hlt => exact (cmpCode_eq_codeLT_iff _ a b).mpr (Int.sub_neg_of_lt hlt)
    case isFalse hge => exact (cmpCode_eq_codeGT_iff _ a b).mpr (by rw [cmpDifference_exactSigned]; omega)

/-! `Wrap32` leaves a difference that fits 32 bits as it is and moves any other past zero by 2^32. -/

theorem cmpDifference_wrap32_of_fits {a b : Word} (hlo : -2 ^ 31 ≤ cmpDifference .exactSigned a b)
    (hhi : cmpDifference .exactSigned a b ≤ 2 ^ 31 - 1) :
    cmpDifference .wrap32 a b = cmpDifference .exactSigned a b := by
  rw [cmpDifference_wrap32]
  exact Int.bmod_eq_of_le (by omega) (by omega)

theorem cmpDifference_wrap32_of_above {a b : Word} (h : 2 ^ 31 ≤ cmpDifference .exactSigned a b) :
    cmpDifference .wrap32 a b = cmpDifference .exactSigned a b - 2 ^ 32 := by
  have hbound := (cmpDifference_exactSigned_bounds a b).2
  rw [cmpDifference_wrap32, ← Int.sub_bmod_right]
  exact Int.bmod_eq_of_le (by omega) (by omega)

theorem cmpDifference_wrap32_of_below {a b : Word} (h : cmpDifference .exactSigned a b < -2 ^ 31) :
    cmpDifference .wrap32 a b = cmpDifference .exactSigned a b + 2 ^ 32 := by
  have hbound := (cmpDifference_exactSigned_bounds a b).1
  rw [cmpDifference_wrap32, ← Int.add_bmod_right]
  exact Int.bmod_eq_of_le (by omega) (by omega)

/-- Settles O19, by where the difference lies: in range, above it or below it. -/
theorem cmpModesDifferOnlyOnOverflow : Obligations.CmpModesDifferOnlyOnOverflow := by
  intro a b
  refine ⟨cmpCode_exactSigned a b,
    fun ⟨hlo, hhi⟩ => cmpCode_congr (cmpDifference_wrap32_of_fits hlo hhi), fun hover => ?overflow⟩
  rw [← cmpDifference_exactSigned] at hover
  obtain ⟨hlo, hhi⟩ := cmpDifference_exactSigned_bounds a b
  by_cases habove : 2 ^ 31 ≤ cmpDifference .exactSigned a b
  · have hwrap := cmpDifference_wrap32_of_above habove
    exact .inl ⟨(cmpCode_eq_codeLT_iff ..).mpr (by omega), (cmpCode_eq_codeGT_iff ..).mpr (by omega)⟩
  · have hbelow : cmpDifference .exactSigned a b < -2 ^ 31 := by omega
    have hwrap := cmpDifference_wrap32_of_below hbelow
    exact .inr ⟨(cmpCode_eq_codeGT_iff ..).mpr (by omega), (cmpCode_eq_codeLT_iff ..).mpr (by omega)⟩

/-! ### A branch right after a comparison (R131) -/

theorem ofBool_eq_pass_iff (b : Bool) : CondResult.ofBool b = .pass ↔ b = true := by cases b <;> decide

section
variable (p : UnknownCondPolicy) (nibble : BitVec 4)

theorem condPass_codeEQ : condPass p codeEQ nibble = .pass ↔ nibble = codeEQ := by
  unfold condPass
  rw [if_pos rfl, ofBool_eq_pass_iff, beq_iff_eq]

theorem condPass_codeNE : condPass p codeNE nibble = .pass ↔ nibble = codeLT ∨ nibble = codeGT := by
  unfold condPass
  rw [if_neg (by decide), if_pos rfl, ofBool_eq_pass_iff, Bool.or_eq_true, beq_iff_eq, beq_iff_eq]

theorem condPass_codeLT : condPass p codeLT nibble = .pass ↔ nibble = codeLT := by
  unfold condPass
  rw [if_neg (by decide), if_neg (by decide), if_pos rfl, ofBool_eq_pass_iff, beq_iff_eq]

theorem condPass_codeGT : condPass p codeGT nibble = .pass ↔ nibble = codeGT := by
  unfold condPass
  rw [if_neg (by decide), if_neg (by decide), if_neg (by decide), if_pos rfl, ofBool_eq_pass_iff, beq_iff_eq]

end

/-- The flags nibble after a CMP that completes is the comparison's code. -/
theorem condNibble_of_exec_cmp {f : DpFields} {s t : State} (hrd : f.rd ≠ pcReg) (h : exec (.cmp f) s = .next t) :
    t.condNibble = cmpCode s.params.cmpMode (s.reg f.rn) (s.operand2 f.op2) := by
  rw [exec_cmp_of_ne hrd s] at h
  cases h
  exact condNibble_setFlags s _

/-- Settles O36: each condition's test of the nibble, and each code's sign of the difference. -/
theorem compareThenBranch : Obligations.CompareThenBranch := by
  intro f s t p hrd h
  rw [condNibble_of_exec_cmp hrd h]
  refine ⟨(condPass_codeEQ p _).trans (cmpCode_eq_codeEQ_iff ..), (condPass_codeNE p _).trans ?notEqual,
    (condPass_codeLT p _).trans (cmpCode_eq_codeLT_iff ..), (condPass_codeGT p _).trans (cmpCode_eq_codeGT_iff ..)⟩
  rw [cmpCode_eq_codeLT_iff, cmpCode_eq_codeGT_iff, lt_or_lt_iff_ne]

end Sys2Proof.Machine
end

section
/-! SUPPORT AND PROOF. Multiplication (42_multiply.md, O17). -/

namespace Sys2Proof.Machine

/-- The product of two words is the natural-number product modulo 2^32 (R113). -/
theorem ofNat_toNat_mul_toNat (a b : Word) : BitVec.ofNat 32 (a.toNat * b.toNat) = a * b := by
  rw [BitVec.ofNat_mul, BitVec.ofNat_toNat, BitVec.ofNat_toNat, BitVec.setWidth_eq, BitVec.setWidth_eq]

/-- Settles O17: the write back of the product, to the destination each value of `MUL_RD_FIELD` selects (R111). -/
theorem mulWritesTheLowProduct : Obligations.MulWritesTheLowProduct := by
  intro f s
  rw [ofNat_toNat_mul_toNat]
  obtain ⟨hwrote, hrest⟩ :=
    writeBack_retire_spec s (mulDest s.params.mulRdField f) (s.reg f.rn * s.reg f.rs) .dp
  refine ⟨_, rfl, fun hfield => ?rnField, fun hfield => ?rdField, hrest⟩
  case rnField =>
    have hdest : mulDest s.params.mulRdField f = f.rn := by rw [hfield, mulDest]
    exact hdest ▸ hwrote
  case rdField =>
    have hdest : mulDest s.params.mulRdField f = f.rd := by rw [hfield, mulDest]
    exact hdest ▸ hwrote

end Sys2Proof.Machine
end

section
/-! SUPPORT AND PROOF. The load/store sequencer (43_load_store.md; O23 to O26): each of its checks passed and failed,
then each instruction past its checks. -/

namespace Sys2Proof.Machine

/-! ### The checks of R124, in the statements' terms -/

theorem guardAligned_of_multipleOf4 (i : Instr) {ea : Word} (s : State) (go : Result) (h : multipleOf4 ea) :
    guardAligned i ea s go = go := if_pos ((aligned4_iff ea).mpr h)

/-- A word access off a multiple of 4 faults with no effect (R47). -/
theorem faultsWith_guardAligned (i : Instr) {ea : Word} (s : State) (go : Result) (h : ¬ multipleOf4 ea) :
    faultsWith s ⟨.misalignedData, 3, some s.pc, some (encode i), some ea⟩ (guardAligned i ea s go) := by
  rw [guardAligned, if_neg (mt (aligned4_iff ea).mp h)]
  exact faultsWith_raise s .misalignedData (some (encode i)) (some ea)

theorem guardAdmitted_of_admits (i : Instr) {k : Access} {ea : Word} {n : Nat} (hn : 0 < n) (s : State) (go : Result)
    (h : admits s.params k ea n) : guardAdmitted i k ea n s go = go := if_pos ((admitted_iff _ k ea hn).mpr h)

/-- An access outside R41's table faults with no effect (R44). -/
theorem faultsWith_guardAdmitted (i : Instr) {k : Access} {ea : Word} {n : Nat} (hn : 0 < n) (s : State) (go : Result)
    (h : ¬ admits s.params k ea n) :
    faultsWith s ⟨.outOfBounds, 2, some s.pc, some (encode i), some ea⟩ (guardAdmitted i k ea n s go) := by
  rw [guardAdmitted, if_neg (mt (admitted_iff _ k ea hn).mp h)]
  exact faultsWith_raise s .outOfBounds (some (encode i)) (some ea)

/-! ### Loads -/

/-- LDR past the alignment check: only R41's table is left to ask (R116, R124). -/
theorem exec_ldr_of_multipleOf4 {f : MemFields} {s : State} (h : multipleOf4 (s.effectiveAddress f)) :
    exec (.ldr f) s = guardAdmitted (.ldr f) .load (s.effectiveAddress f) 4 s
      (.next ((s.writeBack f.rd (s.readWord (s.effectiveAddress f))).retire .mem)) :=
  guardAligned_of_multipleOf4 (.ldr f) s _ h

/-- Settles O23, check by check; past both, LDR is a write back. -/
theorem ldrLoadsTheWord : Obligations.LdrLoadsTheWord := by
  refine fun f s => ⟨fun hal had => ?completes, faultsWith_guardAligned (.ldr f) s _, fun hal had => ?outOfBounds⟩
  case completes =>
    exact ⟨_, (exec_ldr_of_multipleOf4 hal).trans (guardAdmitted_of_admits _ (by decide) s _ had),
      writeBack_retire_spec s f.rd _ .mem⟩
  case outOfBounds =>
    rw [exec_ldr_of_multipleOf4 hal]
    exact faultsWith_guardAdmitted _ (by decide) s _ had

/-- Settles O24: LDRB has the one check, and past it is a write back of the byte as a word. -/
theorem ldrbLoadsTheByte : Obligations.LdrbLoadsTheByte := by
  refine fun f s => ⟨fun had => ?completes, faultsWith_guardAdmitted (.ldrb f) (by decide) s _⟩
  rw [BitVec.ofNat_toNat]
  exact ⟨_, guardAdmitted_of_admits (.ldrb f) (by decide) s _ had, writeBack_retire_spec s f.rd _ .mem⟩

/-! ### Stores -/

theorem sameMemoryOutside_writeByte (s : State) (a : Word) (b : Byte) : sameMemoryOutside a 1 s (s.writeByte a b) :=
  fun _ hc => readByte_writeByte_other s b (by simpa using hc 0 Nat.one_pos)

theorem sameMemoryOutside_writeWord (s : State) (a v : Word) : sameMemoryOutside a 4 s (s.writeWord a v) :=
  fun _ hc => readByte_writeWord_other s v hc

/-- STR past its destination field's check (R118, R120). -/
theorem exec_str_of_ne {f : MemFields} (h : f.rd ≠ pcReg) (s : State) :
    exec (.str f) s = guardAligned (.str f) (s.effectiveAddress f) s
      (guardAdmitted (.str f) .store (s.effectiveAddress f) 4 s
        (.next ((s.writeWord (s.effectiveAddress f) (s.reg f.rd)).advance.retire .mem))) :=
  guardPcField_of_ne (.str f) s _ h

/-- STR past the checks of its destination field and of its alignment (R118, R124). -/
theorem exec_str_of_multipleOf4 {f : MemFields} {s : State} (h : f.rd ≠ pcReg)
    (hal : multipleOf4 (s.effectiveAddress f)) :
    exec (.str f) s = guardAdmitted (.str f) .store (s.effectiveAddress f) 4 s
      (.next ((s.writeWord (s.effectiveAddress f) (s.reg f.rd)).advance.retire .mem)) :=
  (exec_str_of_ne h s).trans (guardAligned_of_multipleOf4 _ s _ hal)

/-- STRB past its destination field's check (R119, R120). -/
theorem exec_strb_of_ne {f : MemFields} (h : f.rd ≠ pcReg) (s : State) :
    exec (.strb f) s = guardAdmitted (.strb f) .store (s.effectiveAddress f) 1 s
      (.next ((s.writeByte (s.effectiveAddress f) (byteOfWord (s.reg f.rd) 0)).advance.retire .mem)) :=
  guardPcField_of_ne (.strb f) s _ h

/-- Settles O25, check by check; past all three, STR advances from the state with the word stored. -/
theorem strStoresTheWord : Obligations.StrStoresTheWord := by
  refine fun f s => ⟨fun hrd hal had => ?completes, faultsWith_guardPcField (.str f) s _,
    fun hrd hal => ?misaligned, fun hrd hal had => ?outOfBounds⟩
  case completes =>
    obtain ⟨hwent, hcounted, hflags, -, hcontrol⟩ :=
      advance_retire_spec (s.writeWord (s.effectiveAddress f) (s.reg f.rd)) .mem
    exact ⟨_, (exec_str_of_multipleOf4 hrd hal).trans (guardAdmitted_of_admits _ (by decide) s _ had),
      hwent, hcounted, hflags, hcontrol, sameMemoryOutside_writeWord s _ _, fun hw => readWord_writeWord hw _ _⟩
  case misaligned =>
    rw [exec_str_of_ne hrd]
    exact faultsWith_guardAligned _ s _ hal
  case outOfBounds =>
    rw [exec_str_of_multipleOf4 hrd hal]
    exact faultsWith_guardAdmitted _ (by decide) s _ had

/-- Settles O26, check by check; past both, STRB advances from the state with the low byte stored. -/
theorem strbStoresTheByte : Obligations.StrbStoresTheByte := by
  refine fun f s => ⟨fun hrd had => ?completes, faultsWith_guardPcField (.strb f) s _, fun hrd had => ?outOfBounds⟩
  case completes =>
    obtain ⟨hwent, hcounted, hflags, -, hcontrol⟩ :=
      advance_retire_spec (s.writeByte (s.effectiveAddress f) (byteOfWord (s.reg f.rd) 0)) .mem
    refine ⟨_, (exec_strb_of_ne hrd s).trans (guardAdmitted_of_admits _ (by decide) s _ had),
      hwent, hcounted, hflags, hcontrol, sameMemoryOutside_writeByte s _ _, fun hw => ?lowByte⟩
    have hstored := congrArg BitVec.toNat
      (readByte_writeByte_same hw (s.effectiveAddress f) (byteOfWord (s.reg f.rd) 0))
    rwa [byteOfWord_toNat, Nat.pow_zero, Nat.div_one] at hstored
  case outOfBounds =>
    rw [exec_strb_of_ne hrd]
    exact faultsWith_guardAdmitted _ (by decide) s _ had

end Sys2Proof.Machine
end

section
/-! SUPPORT AND PROOF. The branch executor (44_branch.md; O29, O31 to O35, O37): the condition against R131's table, the
displacement, and what a branch that is taken, one that is not and one that faults each leave. -/

namespace Sys2Proof.Machine

/-! ### The condition, in the statements' terms (R131, R132) -/

section
variable {p : UnknownCondPolicy} {cond nibble : BitVec 4}

theorem condPass_eq_pass_iff (h : recognisedCond cond) : condPass p cond nibble = .pass ↔ condHolds cond nibble := by
  obtain rfl | rfl | rfl | rfl := h
  · exact (condPass_codeEQ p nibble).trans (by simp [condHolds, codeEQ])
  · exact (condPass_codeNE p nibble).trans (by simp [condHolds, codeLT, codeGT])
  · exact (condPass_codeLT p nibble).trans (by simp [condHolds, codeLT])
  · exact (condPass_codeGT p nibble).trans (by simp [condHolds, codeGT])

theorem not_recognisedCond_iff :
    ¬ recognisedCond cond ↔ cond ≠ codeEQ ∧ cond ≠ codeNE ∧ cond ≠ codeLT ∧ cond ≠ codeGT := by
  rw [recognisedCond, not_or, not_or, not_or]
  rfl

/-- The machine's test for an unknown condition is the statements' (R132). -/
theorem condPass_eq_unknown_iff : condPass p cond nibble = .unknown ↔ p = .fault ∧ ¬ recognisedCond cond := by
  rw [condPass_eq_unknown, not_recognisedCond_iff]

/-- A recognised condition either passes or fails. -/
theorem condPass_eq_fail_iff (h : recognisedCond cond) : condPass p cond nibble = .fail ↔ ¬ condHolds cond nibble := by
  have known : condPass p cond nibble ≠ .unknown := fun hu => (condPass_eq_unknown_iff.mp hu).2 h
  rw [← condPass_eq_pass_iff (p := p) h]
  cases hc : condPass p cond nibble with
  | pass => simp
  | fail => simp
  | unknown => exact absurd hc known

/-- Under policy `NeverTaken` a code outside the four fails (R132). -/
theorem condPass_neverTaken (h : ¬ recognisedCond cond) : condPass .neverTaken cond nibble = .fail := by
  obtain ⟨heq, hne, hlt, hgt⟩ := not_recognisedCond_iff.mp h
  rw [condPass, if_neg heq, if_neg hne, if_neg hlt, if_neg hgt]

/-- Only a recognised condition holds. -/
theorem recognisedCond_of_condHolds (h : condHolds cond nibble) : recognisedCond cond := by
  obtain ⟨hc, -⟩ | ⟨hc, -⟩ | ⟨hc, -⟩ | ⟨hc, -⟩ := h
  · exact .inl hc
  · exact .inr (.inl hc)
  · exact .inr (.inr (.inl hc))
  · exact .inr (.inr (.inr hc))

theorem condPass_of_condHolds (h : condHolds cond nibble) : condPass p cond nibble = .pass :=
  (condPass_eq_pass_iff (recognisedCond_of_condHolds h)).mpr h

end

theorem condPass_of_condFails {s : State} {cond : BitVec 4} (h : condFails s cond) :
    condPass s.params.unknownCondPolicy cond s.condNibble = .fail := by
  obtain ⟨hrec, hnot⟩ | ⟨hrec, hpolicy⟩ := h
  · exact (condPass_eq_fail_iff hrec).mpr hnot
  · rw [hpolicy]
    exact condPass_neverTaken hrec

/-- Settles O29. -/
theorem conditionTable : Obligations.ConditionTable := fun _ _ _ =>
  ⟨fun hrec => ⟨condPass_eq_pass_iff hrec, condPass_eq_fail_iff hrec⟩,
    fun hrec => ⟨condPass_eq_unknown_iff.mpr ⟨rfl, hrec⟩, condPass_neverTaken hrec⟩⟩

/-! ### The displacement (R73) -/

/-- `BranchOffset` gives back a displacement that is a multiple of 4 and fits 26 signed bits: the field and the two zero
bits are its low 26 bits, and sign extension restores the rest. -/
theorem branchOffset_of_displacement {d : Word} (hlow : d.extractLsb' 0 2 = 0#2) (hmin : -2 ^ 25 ≤ d.toInt)
    (hmax : d.toInt ≤ 2 ^ 25 - 4) : branchOffset (d.extractLsb' 2 24) = d := by
  have low26 : d.extractLsb' 2 24 ++ 0b00#2 = d.setWidth 26 := by
    rw [← hlow, BitVec.setWidth_eq_extractLsb' (by decide)]
    exact BitVec.extractLsb'_append_extractLsb'_eq_extractLsb' (start₁ := 0) (len₁ := 2) rfl
  have fits : d.toInt.bmod (2 ^ 26) = d.toInt := Int.bmod_eq_of_le (by omega) (by omega)
  apply BitVec.eq_of_toInt_eq
  calc (branchOffset (d.extractLsb' 2 24)).toInt
      = (d.setWidth 26).toInt := by rw [branchOffset, low26, BitVec.toInt_signExtend_of_le (by decide)]
    _ = d.toInt.bmod (2 ^ 26) := by
      rw [BitVec.toInt_setWidth, BitVec.toInt_eq_toNat_bmod, Int.bmod_bmod_of_dvd (by decide)]
    _ = d.toInt := fits

/-- Settles O31: the field restores the displacement, which added to `cur + 8` is the target. -/
theorem branchOffsetRoundTrip : Obligations.BranchOffsetRoundTrip := by
  intro cur target hlow hmin hmax
  rw [branchOffset_of_displacement hlow hmin hmax]
  ring

/-! ### A branch that is taken, is not taken, or faults -/

/-- A jump that retires (R133, R137): the PC, one count, and nothing else. -/
theorem setPc_retire_spec (s : State) (v : Word) (k : Retired) :
    ((s.setPc v).retire k).pc = v ∧ sameRegsExcept [pcReg] s ((s.setPc v).retire k)
      ∧ countedAs k s ((s.setPc v).retire k) ∧ ((s.setPc v).retire k).flags = s.flags
      ∧ sameMemory s ((s.setPc v).retire k) ∧ sameControl s ((s.setPc v).retire k)
      ∧ haltsIfZero ((s.setPc v).retire k) := by
  refine ⟨pc_setPc s v, fun r hr => ?others, rfl, rfl, sameMemory_of_mem_eq rfl, ⟨rfl, rfl, rfl, rfl⟩,
    haltsIfZero_all _⟩
  case others =>
    have hrpc : r ≠ pcReg := by simpa using hr
    rw [reg_retire, reg_setPc, if_neg hrpc]

section
variable (i : Instr) {cond : BitVec 4} {s : State} (taken : State)

theorem branchOn_of_condHolds (h : condHolds cond s.condNibble) :
    branchOn i cond s taken = .next (taken.retire .brTaken) := by
  rw [branchOn, condPass_of_condHolds h]

/-- A branch not taken goes on, counts one not taken, and does nothing else (R135). -/
theorem branchOn_of_condFails (h : condFails s cond) :
    ∃ t, branchOn i cond s taken = .next t ∧ wentOn s t ∧ countedAs .brNotTaken s t ∧ t.flags = s.flags
      ∧ sameMemory s t ∧ sameControl s t := by
  rw [branchOn, condPass_of_condFails h]
  exact ⟨_, rfl, advance_retire_spec s .brNotTaken⟩

/-- A code outside the four faults with no effect under policy `Fault` (R132). -/
theorem faultsWith_branchOn (hrec : ¬ recognisedCond cond) (hpolicy : s.params.unknownCondPolicy = .fault) :
    faultsWith s ⟨.unknownCondition, 5, some s.pc, some (encode i), none⟩ (branchOn i cond s taken) := by
  rw [branchOn, condPass_eq_unknown_iff.mpr ⟨hpolicy, hrec⟩]
  exact faultsWith_raise s .unknownCondition (some (encode i)) none

end

/-- Settles O32: taken, B is a jump to its target. -/
theorem branchTakenOrNot : Obligations.BranchTakenOrNot := fun f s =>
  ⟨fun hholds => ⟨_, branchOn_of_condHolds (.b f) _ hholds, setPc_retire_spec s (s.branchTarget f.imm24) .brTaken⟩,
    branchOn_of_condFails (.b f) _⟩

/-- Settles O33: taken, BL jumps from the state with the return address in r14. -/
theorem branchAndLink : Obligations.BranchAndLink := by
  refine fun f s => ⟨fun hholds => ?taken, branchOn_of_condFails (.bl f) _⟩
  obtain ⟨hpc, hregs, hcounted, hflags, hmem, hcontrol, hhalts⟩ :=
    setPc_retire_spec (s.setReg lrReg (s.pc + 4#32)) (s.branchTarget f.imm24) .brTaken
  refine ⟨_, branchOn_of_condHolds (.bl f) _ hholds, hpc, ?link, fun r hr => ?others, hcounted, hflags, hmem, hcontrol,
    hhalts⟩
  case link => exact (hregs lrReg (by decide)).trans (reg_setReg_same s lrReg _)
  case others =>
    obtain ⟨hlr, hrpc⟩ : r ≠ lrReg ∧ r ≠ pcReg := by simpa using hr
    exact (hregs r (by simpa using hrpc)).trans (reg_setReg_ne s _ hlr)

/-- Settles O34. -/
theorem unknownConditions : Obligations.UnknownConditions := fun f _ hrec hpolicy =>
  ⟨faultsWith_branchOn (.b f) _ hrec hpolicy, faultsWith_branchOn (.bl f) _ hrec hpolicy⟩

/-- Settles O35: BX is a jump to the register's value, which no condition guards. -/
theorem branchExchange : Obligations.BranchExchange :=
  ⟨fun f s => ⟨_, rfl, setPc_retire_spec s (s.reg f.rm) .brTaken⟩, rfl⟩

/-! ### Alignment of the PC (R140) -/

/-- Alignment survives addition modulo 2^32. -/
theorem multipleOf4_add {a b : Word} (ha : multipleOf4 a) (hb : multipleOf4 b) : multipleOf4 (a + b) := by
  unfold multipleOf4 at *
  rw [BitVec.toNat_add]
  omega

theorem multipleOf4_branchOffset (imm24 : BitVec 24) : multipleOf4 (branchOffset imm24) := by
  have scaled := toInt_branchOffset imm24
  rw [BitVec.toInt_eq_toNat_cond] at scaled
  unfold multipleOf4
  omega

theorem multipleOf4_branchTarget {s : State} (h : multipleOf4 s.pc) (imm24 : BitVec 24) :
    multipleOf4 (s.branchTarget imm24) :=
  multipleOf4_add (multipleOf4_add h rfl) (multipleOf4_branchOffset imm24)

/-- A conditional branch keeps the PC aligned when its taken state is: else the PC advances by 4 or stays. -/
theorem multipleOf4_pc_of_branchOn {i : Instr} {cond : BitVec 4} {s taken t : State} (hs : multipleOf4 s.pc)
    (htaken : multipleOf4 taken.pc) (h : branchOn i cond s taken = .next t) : multipleOf4 t.pc := by
  rcases branchOn_cases i cond s taken with ⟨-, e⟩ | ⟨-, e⟩ | ⟨-, e⟩ <;> cases e.symm.trans h
  · rwa [pc_retire]
  · rw [pc_retire, pc_advance]
    exact multipleOf4_add hs rfl
  · rwa [pc_raise]

/-- Settles O37: the taken state's PC is the target, for B and for BL. -/
theorem branchTargetsAligned : Obligations.BranchTargetsAligned := by
  intro f s t hs hexec
  have target := multipleOf4_branchTarget hs f.imm24
  obtain hb | hbl := hexec
  · exact multipleOf4_pc_of_branchOn hs (by rwa [pc_setPc]) hb
  · exact multipleOf4_pc_of_branchOn hs (by rwa [pc_setPc]) hbl

end Sys2Proof.Machine
end

section
/-! SUPPORT AND PROOF. The step loop of a call (45_step_loop.md): how a call begins (R213; O54), who has a step and how
it can end (R150, R151, R156; O10, O39, O42), and that every call ends within its budget (R152, R160; O45). -/

namespace Sys2Proof.Machine

/-! ### The beginning of a call -/

/-- `start` is `reset_for_call` exactly outside RUNNING, with a cache, and with no more than four arguments (R150, R181,
R213). -/
theorem start_eq_done_iff {s t : State} {entry : Word} {args : List Word} :
    s.start entry args = .done t ↔ s.runState ≠ .running ∧ s.cache ≠ none ∧ args.length ≤ 4
      ∧ s.resetForCall entry (argument args 0) (argument args 1) (argument args 2) (argument args 3) = t := by
  unfold State.start
  by_cases hrun : s.runState = .running
  · simp [hrun]
  by_cases hcache : s.cache = none
  · simp [hrun, hcache]
  by_cases hargs : 4 < args.length
  · simp [hrun, hcache, hargs]
  · simp [hrun, hcache, hargs, Nat.le_of_not_lt hargs]

/-- Settles O54: `start` is rejected in RUNNING before anything else is tested, and answers a state only where it is
`reset_for_call`. -/
theorem startBeginsACall : Obligations.StartBeginsACall := by
  intro s entry a b c d
  refine ⟨fun hrun hcache => ?begins, fun hrun _ => if_pos hrun, fun hnone _ _ hdone => ?noCache⟩
  case begins =>
    refine ⟨?_, ?_, ?_, ?_, ?_⟩ <;> exact start_eq_done_iff.mpr ⟨hrun, hcache, by simp, rfl⟩
  case noCache =>
    obtain ⟨-, hcache, -⟩ := start_eq_done_iff.mp hdone
    exact hcache hnone

/-! ### One step, and the write back in it -/

/-- Settles O10: the write back seen from outside, and the fields it leaves alone. -/
theorem writeBackRule : Obligations.WriteBackRule := by
  intro s d v
  obtain ⟨hdest, hadvanced, hothers⟩ := wroteBack_writeBack s d v
  have jumped (hd : d = pcReg) : (s.writeBack d v).pc = v := by rw [pc_writeBack, if_pos hd]
  have control : sameControl s (s.writeBack d v) :=
    ⟨writeBack_runState s d v, writeBack_record s d v, writeBack_cache s d v, writeBack_params s d v⟩
  exact ⟨hdest, hadvanced, jumped, hothers, writeBack_flags s d v, writeBack_counters s d v, writeBack_mem s d v,
    control⟩

/-- Settles O39: the step is `State.halt`, which writes the run state only, and HALTED is a state the host reads. -/
theorem haltAtZero : Obligations.HaltAtZero := fun s hrun h0 =>
  ⟨s.halt, haltsIfZero_all s hrun h0, rfl, rfl, rfl, rfl, rfl, rfl, rfl, rfl, rfl, hostReadsAll_of_ended (.inl rfl)⟩

/-- Settles O42, by the run state. -/
theorem onlyRunningSteps : Obligations.OnlyRunningSteps := by
  intro s hne
  unfold step State.frontEnd
  cases hstate : s.runState with
  | running => exact absurd hstate hne
  | idle => rfl
  | halted => rfl
  | faulted => rfl

/-- Only a missing cache keeps a fetched word from its cache access (R154, log 7). -/
theorem cache_eq_none_of_observe {s : State} {iw : Word} (h : s.observe iw = none) : s.cache = none :=
  Option.map_eq_none_iff.mp h

/-- A RUNNING state with a cache has a next state: the sequencer comes to an end or to an instruction, and every
instruction answers one (R163; log 5). -/
theorem exists_step_of_running {s : State} (hrun : s.runState = .running) (hcache : s.cache ≠ none) :
    ∃ u, step s = .next u := by
  rcases runningFrontEnd_cases s with ⟨-, halts⟩ | ⟨-, -, spent⟩ | ⟨-, -, ⟨_, -, unfetched⟩ | ⟨_, -, fetched⟩⟩
  · exact ⟨_, step_of_ends hrun halts⟩
  · exact ⟨_, step_of_ends hrun spent⟩
  · exact ⟨_, step_of_ends hrun unfetched⟩
  · rcases fetched with ⟨hnone, -⟩ | ⟨t, -, ⟨i, -, runs⟩ | ⟨_, -, undecoded⟩⟩
    · exact absurd (cache_eq_none_of_observe hnone) hcache
    · obtain ⟨u, hexec, -⟩ := exec_effect i t
      exact ⟨u, (step_of_runs hrun runs).trans hexec⟩
    · exact ⟨_, step_of_ends hrun undecoded⟩

/-! ### The end of a call -/

/-- RUNNING, with a cache and n instructions of its budget left: what a call is until it ends (R152, R181). -/
structure Live (n : Nat) (s : State) : Prop where
  running : s.runState = .running
  cached : s.cache ≠ none
  budget : s.counters.total + n = s.params.stepLimit

/-- The call has ended (R160). -/
def Ended (s : State) : Prop := s.runState = .halted ∨ s.runState = .faulted

theorem Sequenced.live {n : Nat} {s t : State} (h : Sequenced s t) (hs : Live n s) : Live n t := by
  cases h with
  | untouched => exact hs
  | accessed c key _ => exact { hs with cached := Option.some_ne_none _ }

/-- A completed instruction uses up one of the budget and leaves the call live (R29, R152). -/
theorem Completes.live {n : Nat} {s t : State} (h : Completes s t) (hs : Live (n + 1) s) : Live n t := by
  obtain ⟨hstate, -, hcache, hparams⟩ := h.control
  obtain ⟨k, hcount⟩ := h.counted
  exact {
    running := hstate.trans hs.running
    cached := by rw [hcache]; exact hs.cached
    budget := by
      have hbudget := hs.budget
      rw [hcount, hparams, Counters.count_total]
      omega }

/-- A step of a live call ends it or uses up one of its budget: a spent budget leaves only the ending (R152, R193). -/
theorem Live.step {n : Nat} {s : State} (h : Live n s) :
    ∃ u, step s = .next u ∧ (Ended u ∨ ∃ m, n = m + 1 ∧ Live m u) := by
  obtain ⟨u, hstep⟩ := exists_step_of_running h.running h.cached
  refine ⟨u, hstep, ?_⟩
  obtain ⟨-, rfl | ⟨t, c, w, a, -, -, rfl⟩ | ⟨t, ht, hunspent, hdone⟩⟩ := step_halts_faults_or_completes hstep
  · exact .inl (.inl rfl)
  · exact .inl (.inr rfl)
  · cases n with
    | zero => exact absurd h.budget hunspent
    | succ m => exact .inr ⟨m, rfl, hdone.live (ht.live h)⟩

/-- A step in front of a run. -/
theorem ReachesIn.of_step {n : Nat} {s t u : State} (hstep : Machine.step s = .next t) (h : ReachesIn n t u) :
    ReachesIn (n + 1) s u := by
  induction h with
  | refl t => exact .step (.refl s) hstep
  | step _ hlast ih => exact .step (ih hstep) hlast

/-- A live call ends within one step more than its budget has left, by induction on what is left. -/
theorem Live.reaches_end {n : Nat} {s : State} (h : Live n s) : ∃ k t, k ≤ n + 1 ∧ ReachesIn k s t ∧ Ended t := by
  induction n generalizing s with
  | zero =>
    obtain ⟨u, hstep, hended | ⟨_, hleft, -⟩⟩ := h.step
    · exact ⟨1, u, le_rfl, .of_step hstep (.refl u), hended⟩
    · cases hleft
  | succ n ih =>
    obtain ⟨u, hstep, hended | ⟨_, hleft, hlive⟩⟩ := h.step
    · exact ⟨1, u, by omega, .of_step hstep (.refl u), hended⟩
    · cases hleft
      obtain ⟨k, t, hk, hreach, hended⟩ := ih hlive
      exact ⟨k + 1, t, by omega, .of_step hstep hreach, hended⟩

/-- Settles O45: a RUNNING state is live with `STEP_LIMIT − CNT.total` of its budget left. -/
theorem everyCallEnds : Obligations.EveryCallEnds := fun _ hrun hcache hbudget =>
  Live.reaches_end ⟨hrun, hcache, Nat.add_sub_cancel' hbudget⟩

end Sys2Proof.Machine
end

section
/-! SUPPORT AND PROOF. The fetch-path cache (46_fetch_cache.md): the index and the tag of a key (R172 to R174; O47), the
admitted sizes (R170, R181; O48), an access (R175 to R178; O49, O50) and the slots it writes, which stay valid
(R182; O51). -/

namespace Sys2Proof.Machine

/-! ### Sizes, index and tag -/

/-- The logarithm of an admitted size is its exponent (R173). -/
theorem cacheLog2_two_pow {k : Nat} (h : validCacheSize (2 ^ k) = true) : cacheLog2 (2 ^ k) = k :=
  Nat.pow_right_injective le_rfl (two_pow_cacheLog2 h)

/-- Settles O48: an admitted size is two to its logarithm, and to no other exponent. -/
theorem cacheSizes : Obligations.CacheSizes := by
  intro n
  refine ⟨validCacheSize_iff_pow n, ?_⟩
  rintro k hlo hhi rfl
  exact cacheLog2_two_pow ((validCacheSize_iff_pow _).mpr ⟨k, hlo, hhi, rfl⟩)

/-- The mask `2 ^ k - 1` keeps the word number modulo `2 ^ k` (R172). -/
theorem slotIndex_two_pow {k : Nat} (hk : k ≤ 32) (key : Word) :
    slotIndex (2 ^ k) key = key.toNat / 4 % 2 ^ k := by
  have hfits : 2 ^ k - 1 < 2 ^ 32 :=
    lt_of_lt_of_le (Nat.sub_one_lt_of_lt (Nat.two_pow_pos k)) (Nat.pow_le_pow_right (by decide) hk)
  rw [slotIndex, BitVec.toNat_and, BitVec.toNat_ofNat, Nat.mod_eq_of_lt hfits, Nat.and_two_pow_sub_one_eq_mod,
    BitVec.toNat_ushiftRight, Nat.shiftRight_eq_div_pow]

/-- The full tag is what is left of the key past the two byte bits and the index (R174). -/
theorem toNat_cacheTag_full {n : Nat} (h : validCacheSize n = true) (key : Word) :
    (cacheTag .full n key).toNat = key.toNat / (4 * n) := by
  rw [cacheTag, BitVec.toNat_ushiftRight, Nat.shiftRight_eq_div_pow, Nat.pow_add, two_pow_cacheLog2 h]

/-- The reference tag is the full tag under the mask `(2 + k) − 1` (R174). -/
theorem toNat_cacheTag_reference {n : Nat} (hlog : cacheLog2 n + 1 < 2 ^ 32) (key : Word) :
    (cacheTag .reference n key).toNat = (cacheTag .full n key).toNat &&& (cacheLog2 n + 1) := by
  have hmask : (BitVec.ofNat 32 (2 + cacheLog2 n - 1)).toNat = cacheLog2 n + 1 := by
    rw [show 2 + cacheLog2 n - 1 = cacheLog2 n + 1 by omega, BitVec.toNat_ofNat, Nat.mod_eq_of_lt hlog]
  simp only [cacheTag, BitVec.toNat_and, hmask]

/-- Settles O47, with the size written as two to its logarithm. -/
theorem indexAndTag : Obligations.IndexAndTag := by
  intro n key h
  obtain ⟨k, -, hhi, rfl⟩ := (validCacheSize_iff_pow n).mp h
  have hlog := cacheLog2_two_pow h
  refine ⟨slotIndex_two_pow (by omega) key, toNat_cacheTag_full h key, ?_⟩
  rw [toNat_cacheTag_reference (by omega), toNat_cacheTag_full h]

/-! ### One access -/

/-- A miss writes its own slot, where there is one, and no other (R175, R177; log 7). -/
theorem Cache.slot_recordMiss (c : Cache) (i j : Nat) (t : Word) :
    (c.recordMiss i t).slot j = if i = j ∧ i < c.slots.length then ⟨true, t⟩ else c.slot j := by
  unfold Cache.slot
  rw [recordMiss_slots, List.getD_eq_getElem?_getD, List.getD_eq_getElem?_getD, List.getElem?_set]
  by_cases hij : i = j
  · subst hij
    by_cases hlen : i < c.slots.length <;> simp [hlen]
  · simp [hij]

/-- Settles O49: the cold and the conflict miss are `recordMiss`, the hit is `recordHit` and finds in its slot what a
miss would write there. -/
theorem cacheAccessRule : Obligations.CacheAccessRule := by
  intro mode c key hsize hlen
  have hi : slotIndex c.size key < c.slots.length := hlen.symm ▸ slotIndex_lt hsize key
  rcases c.access_cases mode key with ⟨hvalid, htag, access⟩ | ⟨hmiss, access⟩
  · rw [access]
    have found : c.slot (slotIndex c.size key) = ⟨true, cacheTag mode c.size key⟩ := by
      rw [← hvalid, ← htag]
    exact ⟨rfl, rfl, fun cold => absurd hvalid (by simp [cold]), fun _ _ => ⟨rfl, rfl, rfl⟩,
      fun _ conflict => absurd htag conflict, found, fun _ _ => rfl⟩
  · rw [access]
    refine ⟨rfl, rfl, fun _ => ⟨rfl, rfl⟩, fun hvalid htag => absurd ⟨hvalid, htag⟩ hmiss, fun _ _ => ⟨rfl, rfl⟩,
      ?_, fun j hj => ?_⟩
    · rw [Cache.slot_recordMiss, if_pos ⟨rfl, hi⟩]
    · rw [Cache.slot_recordMiss, if_neg fun ⟨hij, _⟩ => hj hij.symm]

/-- Settles O50. -/
theorem accessKeepsTheCacheWellFormed : Obligations.AccessKeepsTheCacheWellFormed :=
  fun mode _ key hok => Cache.ok_access hok mode key

/-! ### Valid slots stay valid -/

/-- An access invalidates no slot: a hit writes none, and what a miss writes is valid (R175, R182). -/
theorem Cache.valid_slot_access {c : Cache} {j : Nat} (h : (c.slot j).valid = true) (mode : TagMode) (key : Word) :
    ((c.access mode key).slot j).valid = true := by
  rcases c.access_cases mode key with ⟨-, -, hit⟩ | ⟨-, miss⟩
  · rw [hit]
    exact h
  · rw [miss, slot_recordMiss]
    split
    · rfl
    · exact h

/-- A step leaves the cache as it was or makes one access to it (R154, R163). -/
theorem cache_of_step {s u : State} {c : Cache} (hc : s.cache = some c) (h : step s = .next u) :
    u.cache = some c ∨ ∃ key, u.cache = some (c.access s.params.tagMode key) := by
  have sequenced {t : State} (ht : Sequenced s t) :
      t.cache = some c ∨ ∃ key, t.cache = some (c.access s.params.tagMode key) := by
    cases ht with
    | untouched => exact .inl hc
    | accessed d key hd =>
      cases hc.symm.trans hd
      exact .inr ⟨key, rfl⟩
  obtain ⟨-, rfl | ⟨t, cause, w, a, ht, -, rfl⟩ | ⟨t, ht, -, hdone⟩⟩ := step_halts_faults_or_completes h
  · exact .inl hc
  · exact sequenced (t := t) ht
  · obtain ⟨-, -, hcache, -⟩ := hdone.control
    rw [hcache]
    exact sequenced ht

/-- The cache is constructed once per run (R35). -/
theorem construct_of_cache {s : State} {c : Cache} (h : s.cache = some c) (n : Nat) :
    s.construct n = .rejected .alreadyConstructed := by
  simp only [State.construct, h]

theorem cache_of_start {s t : State} {entry : Word} {args : List Word} (h : s.start entry args = .done t) :
    t.cache = s.cache := by
  obtain ⟨-, -, -, rfl⟩ := start_eq_done_iff.mp h
  rfl

theorem cache_of_configure {s t : State} {p : Params} (h : s.configure p = .done t) : t.cache = s.cache := by
  unfold State.configure at h
  split at h <;> cases h
  rfl

theorem cache_of_supplyByte {s t : State} {a : Word} {b : Byte} (h : s.supplyByte a b = .done t) :
    t.cache = s.cache := by
  unfold State.supplyByte at h
  split at h
  · cases h
  · split at h <;> cases h
    rfl

/-- Settles O51: of the step and the host's transactions only the step writes a cache there is, and it writes it by an
access. -/
theorem slotsStayValid : Obligations.SlotsStayValid := by
  intro s t c j hc hvalid hmove
  have unchanged (h : t.cache = s.cache) : ∃ d, t.cache = some d ∧ (d.slot j).valid = true := ⟨c, h.trans hc, hvalid⟩
  rcases hmove with hstep | ⟨n, hbuilt⟩ | ⟨_, _, hstarted⟩ | ⟨_, hconfigured⟩ | ⟨_, _, hsupplied⟩
  · rcases cache_of_step hc hstep with hcache | ⟨key, hcache⟩
    · exact ⟨c, hcache, hvalid⟩
    · exact ⟨_, hcache, Cache.valid_slot_access hvalid _ key⟩
  · rw [construct_of_cache hc] at hbuilt
    cases hbuilt
  · exact unchanged (cache_of_start hstarted)
  · exact unchanged (cache_of_configure hconfigured)
  · exact unchanged (cache_of_supplyByte hsupplied)

end Sys2Proof.Machine
end

section
/-! SUPPORT AND PROOF. The cache is only an observer (R180; O52): replacing the cache commutes with every part of an
instruction's meaning and, where a cache is replaced by another, with the step. -/

namespace Sys2Proof.Machine

/-! ### The cache replaced -/

/-- The state with another cache, or with none. -/
def State.withCache (s : State) (o : Option Cache) : State := { s with cache := o }

/-- The outcome with the cache of its next state replaced. -/
def nextWithCache (o : Option Cache) : Result → Result
  | .next t => .next (t.withCache o)
  | .fault f => .fault f
  | .refused r => .refused r

/-- The front end's answer with the cache of its state replaced. -/
def FrontEnd.withCache (o : Option Cache) : FrontEnd → FrontEnd
  | .ends t => .ends (t.withCache o)
  | .runs i t => .runs i (t.withCache o)
  | .stuck r => .stuck r

/-- Two states agree but for the cache exactly when one is the other with its cache replaced, by none only where there
was none. -/
theorem agreeButCache_iff {s t : State} :
    agreeButCache s t ↔ t = s.withCache t.cache ∧ s.cache.isSome = t.cache.isSome := by
  refine and_congr_left fun _ => ⟨fun h => ?_, fun h => ?_⟩
  · exact congrArg (·.withCache t.cache) h.symm
  · rw [h]
    rfl

section
variable (s : State) (o : Option Cache)

@[simp] theorem withCache_runState : (s.withCache o).runState = s.runState := rfl
@[simp] theorem withCache_counters : (s.withCache o).counters = s.counters := rfl
@[simp] theorem withCache_params : (s.withCache o).params = s.params := rfl
@[simp] theorem withCache_pc : (s.withCache o).pc = s.pc := rfl
@[simp] theorem withCache_condNibble : (s.withCache o).condNibble = s.condNibble := rfl
@[simp] theorem withCache_fetch (a : Word) : (s.withCache o).fetch a = s.fetch a := rfl

end

/-! ### The parts of a meaning -/

section
variable {s : State} {o : Option Cache}

theorem writeBack_withCache (d : Reg) (v : Word) :
    (s.withCache o).writeBack d v = (s.writeBack d v).withCache o := by
  unfold State.writeBack
  split <;> rfl

theorem next_writeBack_withCache (d : Reg) (v : Word) (k : Retired) :
    .next (((s.withCache o).writeBack d v).retire k) = nextWithCache o (.next ((s.writeBack d v).retire k)) := by
  rw [writeBack_withCache]
  rfl

theorem guardPcField_withCache (i : Instr) (rd : Reg) {go go' : Result} (h : go' = nextWithCache o go) :
    guardPcField i rd (s.withCache o) go' = nextWithCache o (guardPcField i rd s go) := by
  unfold guardPcField
  split
  · rfl
  · exact h

theorem guardAligned_withCache (i : Instr) (ea : Word) {go go' : Result} (h : go' = nextWithCache o go) :
    guardAligned i ea (s.withCache o) go' = nextWithCache o (guardAligned i ea s go) := by
  unfold guardAligned
  split
  · exact h
  · rfl

theorem guardAdmitted_withCache (i : Instr) (k : Access) (ea : Word) (n : Nat) {go go' : Result}
    (h : go' = nextWithCache o go) :
    guardAdmitted i k ea n (s.withCache o) go' = nextWithCache o (guardAdmitted i k ea n s go) := by
  rw [guardAdmitted, guardAdmitted, withCache_params]
  split
  · exact h
  · rfl

theorem branchOn_withCache (i : Instr) (cond : BitVec 4) {taken taken' : State} (h : taken' = taken.withCache o) :
    branchOn i cond (s.withCache o) taken' = nextWithCache o (branchOn i cond s taken) := by
  subst h
  rw [branchOn, branchOn, withCache_params, withCache_condNibble]
  cases condPass s.params.unknownCondPolicy cond s.condNibble <;> rfl

theorem dpNoop_withCache (i : Instr) (f : DpFields) :
    dpNoop i f (s.withCache o) = nextWithCache o (dpNoop i f s) :=
  guardPcField_withCache i f.rd rfl

end

/-- No instruction reads or writes the cache (R180). -/
theorem exec_withCache (i : Instr) (s : State) (o : Option Cache) :
    exec i (s.withCache o) = nextWithCache o (exec i s) := by
  cases i with
  | cmp f => exact guardPcField_withCache _ _ rfl
  | bx f => rfl
  | mul f => exact next_writeBack_withCache _ _ _
  | ldr f => exact guardAligned_withCache _ _ (guardAdmitted_withCache _ _ _ _ (next_writeBack_withCache _ _ _))
  | ldrb f => exact guardAdmitted_withCache _ _ _ _ (next_writeBack_withCache _ _ _)
  | str f => exact guardPcField_withCache _ _ (guardAligned_withCache _ _ (guardAdmitted_withCache _ _ _ _ rfl))
  | strb f => exact guardPcField_withCache _ _ (guardAdmitted_withCache _ _ _ _ rfl)
  | add f => exact next_writeBack_withCache _ _ _
  | sub f => exact next_writeBack_withCache _ _ _
  | mov f => exact next_writeBack_withCache _ _ _
  | b f => exact branchOn_withCache _ _ rfl
  | bl f => exact branchOn_withCache _ _ rfl
  | dpnopAnd f => exact dpNoop_withCache _ f
  | dpnopEor f => exact dpNoop_withCache _ f
  | dpnopRsb f => exact dpNoop_withCache _ f
  | dpnopAdc f => exact dpNoop_withCache _ f
  | dpnopSbc f => exact dpNoop_withCache _ f
  | dpnopRsc f => exact dpNoop_withCache _ f
  | dpnopTst f => exact dpNoop_withCache _ f
  | dpnopTeq f => exact dpNoop_withCache _ f
  | dpnopCmn f => exact dpNoop_withCache _ f
  | dpnopOrr f => exact dpNoop_withCache _ f
  | dpnopBic f => exact dpNoop_withCache _ f
  | dpnopMvn f => exact dpNoop_withCache _ f

/-! ### The step -/

section
variable {s : State} {c : Cache}

/-- The access of a fetched word changes whatever cache there is, and the word decodes alike (R154, R155). -/
theorem classifyFetched_withCache (hc : s.cache = some c) (c' : Cache) (iw : Word) :
    ∃ d, (s.withCache (some c')).classifyFetched iw = (s.classifyFetched iw).withCache (some d) := by
  refine ⟨c'.access s.params.tagMode (cacheKeyOf s.params.cacheKey iw s.pc), ?_⟩
  simp only [State.classifyFetched, State.observe, hc, State.withCache, Option.map_some]
  cases decodeWord iw <;> rfl

/-- Halt test, budget and fetch do not see the cache (R151 to R153). -/
theorem runningFrontEnd_withCache (hc : s.cache = some c) (c' : Cache) :
    ∃ d, (s.withCache (some c')).runningFrontEnd = s.runningFrontEnd.withCache (some d) := by
  rw [State.runningFrontEnd, State.runningFrontEnd, withCache_pc, withCache_counters, withCache_params, withCache_fetch]
  split
  · exact ⟨c', rfl⟩
  split
  · exact ⟨c', rfl⟩
  cases s.fetch s.pc with
  | error e => exact ⟨c', rfl⟩
  | ok iw => exact classifyFetched_withCache hc c' iw

/-- Which run state steps does not depend on the cache (R150). -/
theorem frontEnd_withCache (hc : s.cache = some c) (c' : Cache) :
    ∃ d, (s.withCache (some c')).frontEnd = s.frontEnd.withCache (some d) := by
  simp only [State.frontEnd, withCache_runState]
  cases s.runState with
  | running => exact runningFrontEnd_withCache hc c'
  | idle => exact ⟨c', rfl⟩
  | halted => exact ⟨c', rfl⟩
  | faulted => exact ⟨c', rfl⟩

/-- With one cache in place of another a step answers the same, but for the cache (R180). -/
theorem step_withCache (hc : s.cache = some c) (c' : Cache) :
    ∃ d, step (s.withCache (some c')) = nextWithCache (some d) (step s) := by
  obtain ⟨d, hd⟩ := frontEnd_withCache hc c'
  refine ⟨d, ?_⟩
  rw [step, step, hd]
  cases s.frontEnd with
  | ends t => rfl
  | runs i t => exact exec_withCache i t (some d)
  | stuck r => rfl

end

/-- Without a cache on either side the two states are one. -/
theorem eq_of_agreeButCache_of_no_cache {s s' : State} (h : agreeButCache s s') (hc : s.cache = none) : s' = s := by
  obtain ⟨hs', hsome⟩ := agreeButCache_iff.mp h
  have hc' : s'.cache = none := by simpa [hc] using hsome
  rw [hs', hc', ← hc]
  rfl

/-- A state with a cache agrees with itself with another one, but for the cache. -/
theorem agreeButCache_withCache {s : State} (h : s.cache.isSome = true) (d : Cache) :
    agreeButCache s (s.withCache (some d)) :=
  ⟨rfl, h⟩

/-- No step takes the cache away. -/
theorem cache_isSome_of_step {s u : State} {c : Cache} (hc : s.cache = some c) (h : step s = .next u) :
    u.cache.isSome = true := by
  rcases cache_of_step hc h with hu | ⟨_, hu⟩ <;> rw [hu] <;> rfl

/-- Settles O52: where there is a cache the other state is the one with it replaced, and its step is the one's step with
the cache replaced. -/
theorem cacheIsOnlyAnObserver : Obligations.CacheIsOnlyAnObserver := by
  intro s s' h
  cases hc : s.cache with
  | none =>
    rw [eq_of_agreeButCache_of_no_cache h hc]
    exact ⟨fun t ht => ⟨t, ht, rfl, rfl⟩, fun _ => id⟩
  | some c =>
    obtain ⟨hs', hsome⟩ := agreeButCache_iff.mp h
    obtain ⟨c', hc'⟩ : ∃ c', s'.cache = some c' := Option.isSome_iff_exists.mp (by rw [← hsome, hc]; rfl)
    obtain ⟨d, hd⟩ := step_withCache hc c'
    rw [hs', hc', hd]
    refine ⟨fun t ht => ?_, fun r hr => ?_⟩
    · rw [ht]
      exact ⟨_, rfl, agreeButCache_withCache (cache_isSome_of_step hc ht) d⟩
    · rw [hr]
      rfl

end Sys2Proof.Machine
end

section
/-! SUPPORT AND PROOF. The reset for a call (70_reset_and_hazards.md, R210 to R215): what every field holds after it
(O53), that from any power-on it gives the reset state (O56), that an entry of 0 halts at once (O57), and that it
establishes the invariant of a run (O59, O60). -/

namespace Sys2Proof.Machine

/-! ### The state after `reset_for_call` -/

/-- The nine registers that hold neither an argument nor SP, LR or the PC are zeroed (R212). -/
theorem reg_resetForCall_zeroed (s : State) (e a0 a1 a2 a3 : Word) {r : Reg} (hlo : 4 ≤ r) (hhi : r ≤ 12) :
    (s.resetForCall e a0 a1 a2 a3).reg r = 0#32 := by
  have hne {k : Reg} (hk : k < 4 ∨ 12 < k) : r ≠ k :=
    hk.elim (fun hbelow => (hbelow.trans_le hlo).ne') (fun habove => (hhi.trans_lt habove).ne)
  rw [reg_resetForCall, if_neg, if_neg, if_neg, if_neg, if_neg, if_neg] <;> exact hne (by decide)

/-- The stack reads 0 and every other byte is as before (R42, R43, R212). -/
theorem readByte_resetForCall (s : State) (e a0 a1 a2 a3 a : Word) :
    (s.resetForCall e a0 a1 a2 a3).readByte a
      = if s.params.stackBase.toNat ≤ a.toNat ∧ a.toNat < s.params.stackBase.toNat + 1024 then 0#8
        else s.readByte a :=
  Memory.read_clear s.mem s.params.stackBase.toNat stackSize a.toNat

/-- Settles O53: the registers and the memory by their lemmas, every other field as `reset_for_call` writes or keeps
it. -/
theorem resetForCallRule : Obligations.ResetForCallRule := by
  intro s entry a0 a1 a2 a3
  have stack (a : Word) (hlo : s.params.stackBase.toNat ≤ a.toNat)
      (hhi : a.toNat < s.params.stackBase.toNat + 1024) :
      (s.resetForCall entry a0 a1 a2 a3).readByte a = 0#8 := by
    rw [readByte_resetForCall, if_pos ⟨hlo, hhi⟩]
  have outside (a : Word) (ha : a.toNat < s.params.stackBase.toNat ∨ s.params.stackBase.toNat + 1024 ≤ a.toNat) :
      (s.resetForCall entry a0 a1 a2 a3).readByte a = s.readByte a := by
    rw [readByte_resetForCall, if_neg (by omega)]
  exact ⟨rfl, rfl, rfl, rfl, fun _ => reg_resetForCall_zeroed s entry a0 a1 a2 a3, rfl, rfl, rfl, rfl, rfl, rfl, rfl,
    stack, outside, rfl, rfl⟩

/-! ### The reset state from power-on -/

/-- Clearing a range that holds every listed byte leaves none listed. -/
theorem Memory.clear_eq_nil {m : Memory} {lo n : Nat} (h : ∀ c ∈ m, lo ≤ c.1 ∧ c.1 < lo + n) :
    Memory.clear m lo n = [] := by
  refine List.filter_eq_nil_iff.mpr fun c hc => ?_
  obtain ⟨hlo, hhi⟩ := h c hc
  simp [Nat.not_lt.mpr hlo, Nat.not_le.mpr hhi]

theorem isPowerOn_iff {s : State} : s.isPowerOn = true ↔ s.runState = .idle ∧ s.cache = none := by
  simp [State.isPowerOn]

/-- `reset_for_call` overwrites all but the parameters, the cache and the bytes outside the stack: where those are the
reset state's, so is the result (R211, R212; log 2). -/
theorem resetForCall_eq_reset {s : State} (hparams : s.params = State.reset.params)
    (hcache : s.cache = State.reset.cache) (hmem : Memory.clear s.mem s.params.stackBase.toNat stackSize = []) :
    s.resetForCall entryAtReset 0#32 0#32 0#32 0#32 = State.reset := by
  rw [hparams] at hmem
  simp only [State.resetForCall, hparams, hmem, hcache]
  rfl

/-- Settles O56: `construct` supplies the cache of the reset state, and `start` clears every byte there is. -/
theorem resetFromAnyPowerOn : Obligations.ResetFromAnyPowerOn := by
  intro s hpower hparams hstack
  obtain ⟨hidle, hnone⟩ := isPowerOn_iff.mp hpower
  refine ⟨{ s with cache := some (Cache.fresh 8) }, (construct_of_no_cache hnone 8).trans (if_pos (by decide)), ?_⟩
  refine start_eq_done_iff.mpr ⟨by simp [hidle], Option.some_ne_none _, Nat.zero_le 4, ?_⟩
  exact resetForCall_eq_reset hparams rfl (Memory.clear_eq_nil hstack)

/-! ### An entry of 0 -/

/-- Settles O57: the call begins RUNNING with a PC of 0, where the step is the halt of R151. -/
theorem entryZeroHalts : Obligations.EntryZeroHalts := by
  intro s t a0 hstart
  obtain ⟨-, -, -, rfl⟩ := start_eq_done_iff.mp hstart
  exact ⟨_, haltsIfZero_all _ rfl rfl, rfl, rfl, rfl⟩

/-! ### The invariant at the beginning of a call -/

/-- A newly constructed cache of an admitted size is well formed (R170, R178, R179). -/
theorem Cache.ok_fresh {n : Nat} (h : validCacheSize n = true) : (Cache.fresh n).ok := by
  refine ⟨h, List.length_replicate, fun x hx hvalid => ?_, rfl⟩
  rw [List.eq_of_mem_replicate hx] at hvalid
  cases hvalid

/-- `reset_for_call` gives FLAGS, the counters and the record what the invariant asks, and keeps what it asks of memory
and the cache (R211, R212, R214). -/
theorem inv_resetForCall {s : State} (hmem : Memory.wf s.mem = true) (hcache : ∀ c, s.cache = some c → c.ok)
    (e a0 a1 a2 a3 : Word) : (s.resetForCall e a0 a1 a2 a3).Inv where
  memory := wf_resetForCall hmem e a0 a1 a2 a3
  flags := .inl rfl
  counters := ⟨rfl, rfl⟩
  budget := Nat.zero_le s.params.stepLimit
  record := rfl
  cache := hcache

/-- Settles O60: a `start` that is done is `reset_for_call`. -/
theorem startEstablishesTheInvariant : Obligations.StartEstablishesTheInvariant := by
  intro s t entry args hmem hcache hstart
  obtain ⟨-, -, -, rfl⟩ := start_eq_done_iff.mp hstart
  exact inv_resetForCall hmem hcache _ _ _ _ _

/-- Settles O59: the reset state is its own `reset_for_call`, over an empty memory and a newly constructed cache. -/
theorem resetHasTheInvariant : Obligations.ResetHasTheInvariant := by
  have hcache (c : Cache) (hc : State.reset.cache = some c) : c.ok := by
    cases hc
    exact Cache.ok_fresh (by decide)
  have hinv := inv_resetForCall wf_reset hcache entryAtReset 0#32 0#32 0#32 0#32
  rwa [resetForCall_eq_reset rfl rfl rfl] at hinv

end Sys2Proof.Machine
end
